-- ==== Sys2Proof/Word.lean ====
section
/-! DEFINITION. The value types of the machine: every value is an unsigned number of a fixed width
(00_scope.md R9, 30_encoding.md R71). -/

namespace Sys2Proof

/-- `u8` of R9: a V register, a timer, a memory byte, the field `nn`. -/
abbrev Byte := BitVec 8

/-- `u16` of R9: pc, I, a stack entry, an instruction word. -/
abbrev Word := BitVec 16

/-- The field `n = w[3:0]` of R72. -/
abbrev Nibble := BitVec 4

/-- The field `nnn = w[11:0]` of R71. -/
abbrev Addr := BitVec 12

/-- The index of a general register, V0 to VF (10_state.md R20). -/
abbrev Reg := Fin 16

/-- The code of a key, 0 to 15 (45_timers_input.md R210). -/
abbrev Key := Fin 16

/-- VF, the register that doubles as the flag (10_state.md R21). -/
abbrev vf : Reg := 15

end Sys2Proof
end

