-- ==== Sys2Proof/Config.lean ====
section
/-! DEFINITION. What an implementation fixes (00_scope.md R6) and the free values: the three inputs
of a step (00_scope.md R13), drawn from an opaque constant. -/

namespace Sys2Proof

/-- `SUBN_FLAG` of R6 and R148: how 8xy7 computes VF. -/
inductive SubnFlag where
  /-- VF from the latched original Vx and Vy: the spec's default. -/
  | canonical
  /-- VF from the register file read again after Vx was written. -/
  | reference
  deriving DecidableEq, Repr

/-- The three inputs of one step (R13, R100). -/
structure StepInput where
  /-- The answer of the key query: `none` is the sentinel NONE, unequal to every register value (R210). -/
  key : Option Key
  /-- The random byte, any value of `RND_RANGE` (R154). -/
  rnd : Byte
  /-- Whether the 60 Hz timer gate fires in this step (R242). -/
  tick : Bool
  deriving DecidableEq, Repr, Inhabited

/-- `MEM_SIZE` of R6. -/
@[simp] def Config.memSize : Nat := 4096

/-- `RESET_PC` of R6. -/
@[simp] def Config.resetPc : Word := 0x200

/-- FREE VALUE (log entry 1). What the outside world answers at the n-th free draw: it has no body, so
nothing can be proved of an answer but what holds for every answer (R13, R100, U6, U7, U9). -/
opaque Config.draw : Nat → StepInput

/-- `RND_RANGE` of R6 and D11: the full range, or the range narrowed to 0–254. -/
inductive RndRange where
  | full
  | narrow
  deriving DecidableEq, Repr

end Sys2Proof
end

