-- ==== Sys2Proof/Syntax.lean ====
section
/-! DEFINITION. The instructions: one constructor per row of opcode_table.json (30_encoding.md R75).
An operand is a typed field, so no instruction can hold an operand its encoding has no room for. -/

namespace Sys2Proof

/-- The 34 instructions of 00_scope.md R2, in the order of the opcode map R75. -/
inductive Instr where
  /-- 00E0 `CLS` (R190). -/
  | cls
  /-- 00EE `RET` (R121). -/
  | ret
  /-- 1nnn `JP addr` (R122). -/
  | jp (nnn : Addr)
  /-- 2nnn `CALL addr` (R123). -/
  | call (nnn : Addr)
  /-- 3xnn `SE Vx, byte` (R124). -/
  | seImm (x : Reg) (nn : Byte)
  /-- 4xnn `SNE Vx, byte` (R125). -/
  | sneImm (x : Reg) (nn : Byte)
  /-- 5xy0 `SE Vx, Vy` (R126). -/
  | seReg (x y : Reg)
  /-- 6xnn `LD Vx, byte` (R141). -/
  | ldImm (x : Reg) (nn : Byte)
  /-- 7xnn `ADD Vx, byte` (R142). -/
  | addImm (x : Reg) (nn : Byte)
  /-- 8xy0 `LD Vx, Vy` (R143). -/
  | ldReg (x y : Reg)
  /-- 8xy1 `OR Vx, Vy` (R144). -/
  | or (x y : Reg)
  /-- 8xy2 `AND Vx, Vy` (R145). -/
  | and (x y : Reg)
  /-- 8xy3 `XOR Vx, Vy` (R146). -/
  | xor (x y : Reg)
  /-- 8xy4 `ADD Vx, Vy` (R149). -/
  | addReg (x y : Reg)
  /-- 8xy5 `SUB Vx, Vy` (R150). -/
  | sub (x y : Reg)
  /-- 8xy6 `SHR Vx`; y is encoded and ignored (R151, R76). -/
  | shr (x y : Reg)
  /-- 8xy7 `SUBN Vx, Vy` (R152). -/
  | subn (x y : Reg)
  /-- 8xyE `SHL Vx`; y is encoded and ignored (R153, R76). -/
  | shl (x y : Reg)
  /-- 9xy0 `SNE Vx, Vy` (R127). -/
  | sneReg (x y : Reg)
  /-- Annn `LD I, addr` (R171). -/
  | ldI (nnn : Addr)
  /-- Bnnn `JP V0, addr` (R128). -/
  | jpV0 (nnn : Addr)
  /-- Cxnn `RND Vx, byte` (R154). -/
  | rnd (x : Reg) (nn : Byte)
  /-- Dxyn `DRW Vx, Vy, nibble` (R191). -/
  | drw (x y : Reg) (n : Nibble)
  /-- Ex9E `SKP Vx` (R211). -/
  | skp (x : Reg)
  /-- ExA1 `SKNP Vx` (R212). -/
  | sknp (x : Reg)
  /-- Fx07 `LD Vx, DT` (R213). -/
  | ldVxDt (x : Reg)
  /-- Fx0A `LD Vx, K` (R216). -/
  | ldVxK (x : Reg)
  /-- Fx15 `LD DT, Vx` (R214). -/
  | ldDtVx (x : Reg)
  /-- Fx18 `LD ST, Vx` (R215). -/
  | ldStVx (x : Reg)
  /-- Fx1E `ADD I, Vx` (R172). -/
  | addI (x : Reg)
  /-- Fx29 `LD F, Vx` (R173). -/
  | ldF (x : Reg)
  /-- Fx33 `LD B, Vx` (R174). -/
  | ldB (x : Reg)
  /-- Fx55 `LD [I], Vx` (R175). -/
  | ldMemVx (x : Reg)
  /-- Fx65 `LD Vx, [I]` (R176). -/
  | ldVxMem (x : Reg)
  deriving DecidableEq, Repr

end Sys2Proof
end

