-- ==== Sys2Proof/WellFormed.lean ====
section
/-! DEFINITION. The checks on what reaches the machine from outside: a word against the opcode map
(30_encoding.md R75), a memory image against the capacity (70_reset_and_hazards.md R273), a step's
random byte against `RND_RANGE` (42_alu.md R154). An `Instr` needs no check of its own: its operand
types are exactly the fields of R71 (log entry 32). -/

namespace Sys2Proof

/-- One row of the opcode map R75. -/
structure OpcodeRow where
  mnemonic : String
  pattern : Word
  mask : Word
  deriving DecidableEq, Repr

/-- A word selects a row when `w & mask = match` (30_encoding.md, opening). -/
def OpcodeRow.selects (r : OpcodeRow) (w : Word) : Bool :=
  w &&& r.mask == r.pattern

/-- The opcode map R75, row by row. -/
def opcodeMap : List OpcodeRow :=
  [ ⟨"CLS", 0x00E0, 0xFFFF⟩, ⟨"RET", 0x00EE, 0xFFFF⟩, ⟨"JP", 0x1000, 0xF000⟩,
    ⟨"CALL", 0x2000, 0xF000⟩, ⟨"SE_IMM", 0x3000, 0xF000⟩, ⟨"SNE_IMM", 0x4000, 0xF000⟩,
    ⟨"SE_REG", 0x5000, 0xF00F⟩, ⟨"LD_IMM", 0x6000, 0xF000⟩, ⟨"ADD_IMM", 0x7000, 0xF000⟩,
    ⟨"LD_REG", 0x8000, 0xF00F⟩, ⟨"OR", 0x8001, 0xF00F⟩, ⟨"AND", 0x8002, 0xF00F⟩ ] ++
  [ ⟨"XOR", 0x8003, 0xF00F⟩, ⟨"ADD_REG", 0x8004, 0xF00F⟩, ⟨"SUB", 0x8005, 0xF00F⟩,
    ⟨"SHR", 0x8006, 0xF00F⟩, ⟨"SUBN", 0x8007, 0xF00F⟩, ⟨"SHL", 0x800E, 0xF00F⟩,
    ⟨"SNE_REG", 0x9000, 0xF00F⟩, ⟨"LD_I", 0xA000, 0xF000⟩, ⟨"JP_V0", 0xB000, 0xF000⟩,
    ⟨"RND", 0xC000, 0xF000⟩, ⟨"DRW", 0xD000, 0xF000⟩ ] ++
  [ ⟨"SKP", 0xE09E, 0xF0FF⟩, ⟨"SKNP", 0xE0A1, 0xF0FF⟩, ⟨"LD_VX_DT", 0xF007, 0xF0FF⟩,
    ⟨"LD_VX_K", 0xF00A, 0xF0FF⟩, ⟨"LD_DT_VX", 0xF015, 0xF0FF⟩, ⟨"LD_ST_VX", 0xF018, 0xF0FF⟩,
    ⟨"ADD_I", 0xF01E, 0xF0FF⟩, ⟨"LD_F", 0xF029, 0xF0FF⟩, ⟨"LD_B", 0xF033, 0xF0FF⟩,
    ⟨"LD_MEM_VX", 0xF055, 0xF0FF⟩, ⟨"LD_VX_MEM", 0xF065, 0xF0FF⟩ ]

/-- The word is one of the 34 instructions; every other word is unsupported (R77, R79). -/
def supportedWord (w : Word) : Bool :=
  opcodeMap.any (fun r => r.selects w)

/-- The memory image fits the fixed capacity (R273). -/
def imageFits (img : List Byte) : Bool :=
  img.length ≤ Config.memSize

/-- The step's random byte lies in `RND_RANGE` (R154, D11). -/
def StepInput.inRange (range : RndRange) (i : StepInput) : Bool :=
  match range with
  | .full => true
  | .narrow => i.rnd.toNat ≤ 254

/-- The table's mnemonic of an instruction (opcode_table.json). -/
def Instr.mnemonic : Instr → String
  | .cls => "CLS"
  | .ret => "RET"
  | .jp _ => "JP"
  | .call _ => "CALL"
  | .seImm _ _ => "SE_IMM"
  | .sneImm _ _ => "SNE_IMM"
  | .seReg _ _ => "SE_REG"
  | .ldImm _ _ => "LD_IMM"
  | .addImm _ _ => "ADD_IMM"
  | .ldReg _ _ => "LD_REG"
  | .or _ _ => "OR"
  | .and _ _ => "AND"
  | .xor _ _ => "XOR"
  | .addReg _ _ => "ADD_REG"
  | .sub _ _ => "SUB"
  | .shr _ _ => "SHR"
  | .subn _ _ => "SUBN"
  | .shl _ _ => "SHL"
  | .sneReg _ _ => "SNE_REG"
  | .ldI _ => "LD_I"
  | .jpV0 _ => "JP_V0"
  | .rnd _ _ => "RND"
  | .drw _ _ _ => "DRW"
  | .skp _ => "SKP"
  | .sknp _ => "SKNP"
  | .ldVxDt _ => "LD_VX_DT"
  | .ldVxK _ => "LD_VX_K"
  | .ldDtVx _ => "LD_DT_VX"
  | .ldStVx _ => "LD_ST_VX"
  | .addI _ => "ADD_I"
  | .ldF _ => "LD_F"
  | .ldB _ => "LD_B"
  | .ldMemVx _ => "LD_MEM_VX"
  | .ldVxMem _ => "LD_VX_MEM"

end Sys2Proof
end

