-- ==== Sys2Proof/Decode.lean ====
section
/-! DEFINITION. The decoder, total on every word and rejecting by name (30_encoding.md R71–R79), and
after it the encoder, written from the same opcode map (R75). -/

namespace Sys2Proof

/-- Why the decoder rejects. -/
inductive DecodeError where
  /-- The word matches no row of the opcode map: the "unsupported opcode" condition (R77). -/
  | unsupportedOpcode (w : Word)
  /-- Fewer than the two bytes every instruction has (R70): said of a byte list only, never by a step. -/
  | truncated
  deriving DecidableEq, Repr

/-- `op = w[15:12]` (R71). -/
def opField (w : Word) : Nat := (w.extractLsb' 12 4).toNat

/-- `x = w[11:8]` (R71). -/
def xField (w : Word) : Reg := (w.extractLsb' 8 4).toFin

/-- `y = w[7:4]` (R71). -/
def yField (w : Word) : Reg := (w.extractLsb' 4 4).toFin

/-- `n = w[3:0]` (R72). -/
def nField (w : Word) : Nibble := w.extractLsb' 0 4

/-- `nn = w[7:0]` (R71). -/
def nnField (w : Word) : Byte := w.extractLsb' 0 8

/-- `nnn = w[11:0]` (R71). -/
def nnnField (w : Word) : Addr := w.extractLsb' 0 12

/-- The rejection of a word that matches no row (R77). -/
def unsupported (w : Word) : Except DecodeError Instr := .error (.unsupportedOpcode w)

/-- Family 0: the full word decides (R74, R78). -/
def decodeFamily0 (w : Word) : Except DecodeError Instr :=
  if w = 0x00E0 then .ok .cls
  else if w = 0x00EE then .ok .ret
  else unsupported w

/-- Family 8: the low nibble decides (R74). -/
def decodeFamily8 (w : Word) : Except DecodeError Instr :=
  match (nField w).toNat with
  | 0x0 => .ok (.ldReg (xField w) (yField w))
  | 0x1 => .ok (.or (xField w) (yField w))
  | 0x2 => .ok (.and (xField w) (yField w))
  | 0x3 => .ok (.xor (xField w) (yField w))
  | 0x4 => .ok (.addReg (xField w) (yField w))
  | 0x5 => .ok (.sub (xField w) (yField w))
  | 0x6 => .ok (.shr (xField w) (yField w))
  | 0x7 => .ok (.subn (xField w) (yField w))
  | 0xE => .ok (.shl (xField w) (yField w))
  | _ => unsupported w

/-- Family E: the low byte decides (R74). -/
def decodeFamilyE (w : Word) : Except DecodeError Instr :=
  match (nnField w).toNat with
  | 0x9E => .ok (.skp (xField w))
  | 0xA1 => .ok (.sknp (xField w))
  | _ => unsupported w

/-- Family F: the low byte decides (R74). -/
def decodeFamilyF (w : Word) : Except DecodeError Instr :=
  match (nnField w).toNat with
  | 0x07 => .ok (.ldVxDt (xField w))
  | 0x0A => .ok (.ldVxK (xField w))
  | 0x15 => .ok (.ldDtVx (xField w))
  | 0x18 => .ok (.ldStVx (xField w))
  | 0x1E => .ok (.addI (xField w))
  | 0x29 => .ok (.ldF (xField w))
  | 0x33 => .ok (.ldB (xField w))
  | 0x55 => .ok (.ldMemVx (xField w))
  | 0x65 => .ok (.ldVxMem (xField w))
  | _ => unsupported w

/-- The decoder of R74: the family nibble, then the family's own sub-dispatch. -/
def decode (w : Word) : Except DecodeError Instr :=
  match opField w with
  | 0x0 => decodeFamily0 w
  | 0x1 => .ok (.jp (nnnField w))
  | 0x2 => .ok (.call (nnnField w))
  | 0x3 => .ok (.seImm (xField w) (nnField w))
  | 0x4 => .ok (.sneImm (xField w) (nnField w))
  | 0x5 => if nField w = 0 then .ok (.seReg (xField w) (yField w)) else unsupported w
  | 0x6 => .ok (.ldImm (xField w) (nnField w))
  | 0x7 => .ok (.addImm (xField w) (nnField w))
  | 0x8 => decodeFamily8 w
  | 0x9 => if nField w = 0 then .ok (.sneReg (xField w) (yField w)) else unsupported w
  | 0xA => .ok (.ldI (nnnField w))
  | 0xB => .ok (.jpV0 (nnnField w))
  | 0xC => .ok (.rnd (xField w) (nnField w))
  | 0xD => .ok (.drw (xField w) (yField w) (nField w))
  | 0xE => decodeFamilyE w
  | 0xF => decodeFamilyF w
  | _ => unsupported w

/-- Two bytes in memory order make a word, the first the high byte (20_memory.md R52). -/
def wordOfBytes (hi lo : Byte) : Word := hi ++ lo

/-- The byte at the lower address, then the byte after it (R52). -/
def bytesOfWord (w : Word) : List Byte := [w.extractLsb' 8 8, w.extractLsb' 0 8]

/-- Decode the instruction at the head of a byte list and give the rest: always two bytes (R70). -/
def decodeBytes : List Byte → Except DecodeError (Instr × List Byte)
  | hi :: lo :: rest =>
    match decode (wordOfBytes hi lo) with
    | .ok i => .ok (i, rest)
    | .error e => .error e
  | _ => .error .truncated

/-- The four bits of a register operand (R71). -/
def regBits (r : Reg) : Nibble := BitVec.ofFin r

/-- Formats of R71: op and nnn; op, x and nn; op, x, y and n. -/
def formNnn (op : Nibble) (nnn : Addr) : Word := op ++ nnn

@[inherit_doc formNnn] def formXNn (op : Nibble) (x : Reg) (nn : Byte) : Word := op ++ regBits x ++ nn

@[inherit_doc formNnn] def formXYN (op : Nibble) (x y : Reg) (n : Nibble) : Word :=
  op ++ regBits x ++ regBits y ++ n

/-- The word of an instruction, by its row of the opcode map R75. -/
def encode : Instr → Word
  | .cls => 0x00E0
  | .ret => 0x00EE
  | .jp nnn => formNnn 0x1 nnn
  | .call nnn => formNnn 0x2 nnn
  | .seImm x nn => formXNn 0x3 x nn
  | .sneImm x nn => formXNn 0x4 x nn
  | .seReg x y => formXYN 0x5 x y 0x0
  | .ldImm x nn => formXNn 0x6 x nn
  | .addImm x nn => formXNn 0x7 x nn
  | .ldReg x y => formXYN 0x8 x y 0x0
  | .or x y => formXYN 0x8 x y 0x1
  | .and x y => formXYN 0x8 x y 0x2
  | .xor x y => formXYN 0x8 x y 0x3
  | .addReg x y => formXYN 0x8 x y 0x4
  | .sub x y => formXYN 0x8 x y 0x5
  | .shr x y => formXYN 0x8 x y 0x6
  | .subn x y => formXYN 0x8 x y 0x7
  | .shl x y => formXYN 0x8 x y 0xE
  | .sneReg x y => formXYN 0x9 x y 0x0
  | .ldI nnn => formNnn 0xA nnn
  | .jpV0 nnn => formNnn 0xB nnn
  | .rnd x nn => formXNn 0xC x nn
  | .drw x y n => formXYN 0xD x y n
  | .skp x => formXNn 0xE x 0x9E
  | .sknp x => formXNn 0xE x 0xA1
  | .ldVxDt x => formXNn 0xF x 0x07
  | .ldVxK x => formXNn 0xF x 0x0A
  | .ldDtVx x => formXNn 0xF x 0x15
  | .ldStVx x => formXNn 0xF x 0x18
  | .addI x => formXNn 0xF x 0x1E
  | .ldF x => formXNn 0xF x 0x29
  | .ldB x => formXNn 0xF x 0x33
  | .ldMemVx x => formXNn 0xF x 0x55
  | .ldVxMem x => formXNn 0xF x 0x65

/-- The bits the opcode table numbers, as an instruction word: bit 0 the least significant (R7), the
bits above `nbits` zero. -/
def tableWord (nbits w : Nat) : Word := BitVec.ofNat 16 (w % 2 ^ nbits)

/-- The instruction the decoder reads from the word of an opcode-table row, laid out as it is stored. -/
def decodeTableWord (nbits w : Nat) : Option Instr :=
  match decodeBytes (bytesOfWord (tableWord nbits w)) with
  | .ok (i, _) => some i
  | .error _ => none

end Sys2Proof
end

