-- ==== Sys2Proof/Machine/Font.lean ====
section
/-! DEFINITION. The default `FONT` (10_state.md R32, D5): 16 glyphs of 5 bytes, glyph d at bytes 5d to
5d+4. PRESUMED: the spec itself takes the bytes from general knowledge (G3); log entry 3. -/

namespace Sys2Proof.Machine

/-- `FONT : array[80] of u8` of R32. -/
abbrev Font := Vector Byte 80

/-- The default table of R32, one glyph a line. -/
def defaultFont : Font := #v[
  0xF0, 0x90, 0x90, 0x90, 0xF0,
  0x20, 0x60, 0x20, 0x20, 0x70,
  0xF0, 0x10, 0xF0, 0x80, 0xF0,
  0xF0, 0x10, 0xF0, 0x10, 0xF0,
  0x90, 0x90, 0xF0, 0x10, 0x10,
  0xF0, 0x80, 0xF0, 0x10, 0xF0,
  0xF0, 0x80, 0xF0, 0x90, 0xF0,
  0xF0, 0x10, 0x20, 0x40, 0x40,
  0xF0, 0x90, 0xF0, 0x90, 0xF0,
  0xF0, 0x90, 0xF0, 0x10, 0xF0,
  0xF0, 0x90, 0xF0, 0x90, 0x90,
  0xE0, 0x90, 0xE0, 0x90, 0xE0,
  0xF0, 0x80, 0x80, 0x80, 0xF0,
  0xE0, 0x90, 0x90, 0x90, 0xE0,
  0xF0, 0x80, 0xF0, 0x80, 0xF0,
  0xF0, 0x80, 0xF0, 0x80, 0x80]

/-- Byte `a` of a font, and 0 past its end. -/
def fontByte (font : Font) (a : Nat) : Byte :=
  if h : a < 80 then font[a] else 0

end Sys2Proof.Machine
end

