-- ==== Sys2Proof/Machine/State.lean ====
section
/-! DEFINITION. The state of one machine as plain data (10_state.md R20–R36), its reset value
(70_reset_and_hazards.md R271), and the reasons a step can stop. -/

namespace Sys2Proof.Machine

/-- The 4096 bytes (R29) as the list of the cells that differ from the default construction contents,
addresses strictly rising (log entry 21); `Memory.wf` states the form. -/
abbrev Memory := List Host.Cell

/-- The 64×32 one-bit cells (R30): entry `row` holds the 64 cells of that row, cell `col` at bit `col`
(D25: the storage of a cell is not observable; log entry 18). -/
abbrev FrameBuffer := Vector (BitVec 64) 32

/-- `fault.cause` (R31); the codes 0–5 of R230 are `FaultCause.code`. -/
inductive FaultCause where
  /-- NONE: no fault. -/
  | noFault
  /-- UNSUPPORTED_OPCODE (R231). -/
  | unsupportedOpcode
  /-- STACK_OVERFLOW (R232). -/
  | stackOverflow
  /-- STACK_UNDERFLOW (R233). -/
  | stackUnderflow
  /-- FETCH_OUT_OF_RANGE (R234). -/
  | fetchOutOfRange
  /-- DATA_OUT_OF_RANGE (R235). -/
  | dataOutOfRange
  deriving DecidableEq, Repr

/-- The fault record (R31). -/
structure FaultRecord where
  cause : FaultCause
  /-- The instruction word, or 0 for a fetch fault. -/
  word : Word
  /-- The fetch address of the faulting instruction. -/
  pc : Word
  /-- The first out-of-range address of a range fault, otherwise 0. -/
  addr : Nat
  deriving DecidableEq, Repr

/-- The record of a machine that has not faulted (R31). -/
def FaultRecord.none : FaultRecord := ⟨.noFault, 0, 0, 0⟩

/-- The state record of 10_state.md, then three fields of the model's own. -/
structure State where
  /-- V0–VF (R20). -/
  V : Vector Byte 16
  /-- The index register (R23). -/
  I : Word
  /-- The program counter: between steps, the address of the next instruction to fetch (R24). -/
  pc : Word
  /-- The 16 return addresses (R25). -/
  stack : Vector Word 16
  /-- The stack pointer, 0–16: the number of live entries (R26). -/
  sp : Fin 17
  /-- The delay timer (R27). -/
  DT : Byte
  /-- The sound timer (R28). -/
  ST : Byte
  /-- The memory (R29). -/
  mem : Memory
  /-- The framebuffer (R30). -/
  FB : FrameBuffer
  /-- Whether a fault has halted the machine (R31). -/
  halted : Bool
  /-- The fault record (R31). -/
  fault : FaultRecord
  /-- MODEL'S OWN: the parameter `SUBN_FLAG` of this machine (R148), fixed at construction (log entry 2). -/
  subnFlag : SubnFlag
  /-- MODEL'S OWN: the inputs of the coming steps that are already given, the next step's first (log entry 1). -/
  inputs : List StepInput
  /-- MODEL'S OWN: how many inputs were taken from `Config.draw` (log entry 1). -/
  drawn : Nat
  deriving DecidableEq, Repr

/-- Why a step answers a fault instead of a next state. -/
inductive Fault where
  /-- Raised by `step`, on a machine whose `halted` is true: no step is possible (R100, R236). It carries
  the record that the fault entry left. Safe: the machine takes no step, as the spec says. -/
  | halted (r : FaultRecord)
  deriving DecidableEq, Repr

/-- Why an instruction has no meaning. -/
inductive Refusal where
  /-- Raised by an arm of `exec` whose instruction is not modelled; no arm does. Safe: no next state. -/
  | notModelled (mnemonic : String)
  deriving DecidableEq, Repr

/-- What an instruction or a step answers. -/
abbrev Result := Host.Outcome State Fault Refusal

/-- The machine right after default construction (R271): memory lists nothing, so that it reads as its
construction contents; the values the spec decided (D3) are in log entry 4. -/
def State.reset : State where
  V := Vector.replicate 16 0
  I := 0
  pc := Config.resetPc
  stack := Vector.replicate 16 0
  sp := 0
  DT := 0
  ST := 0
  mem := []
  FB := Vector.replicate 32 0
  halted := false
  fault := FaultRecord.none
  subnFlag := .canonical
  inputs := []
  drawn := 0

end Sys2Proof.Machine
end

