-- ==== Sys2Proof/Machine/Ops.lean ====
section
/-! DEFINITION. The named operations over registers, stack, memory, framebuffer, inputs and timers, and
the one operation that takes a fault (60_exceptions.md R236). There is no return from a fault (R238). -/

namespace Sys2Proof.Machine

/-! ### General registers -/

/-- `V[r]` (R10). -/
def State.v (s : State) (r : Reg) : Byte := s.V[r.val]

/-- `V[r] <- b` (R10, R20): no register is hardwired. -/
def State.setV (s : State) (r : Reg) (b : Byte) : State :=
  { s with V := s.V.set r.val b r.isLt }

/-! ### Program counter -/

/-- `pc <- pc0 + 2`, before decode and for every instruction (R102). -/
def State.advance (s : State) : State := { s with pc := s.pc + 2 }

/-- `pc <- target`, with no check (R120). -/
def State.jump (s : State) (target : Word) : State := { s with pc := target }

/-- Add 2 to the advanced pc when the condition holds (R120). -/
def State.skipIf (s : State) (cond : Bool) : State :=
  if cond then s.jump (s.pc + 2) else s

/-! ### Call stack -/

/-- Push a return address (R123), or nothing when the stack is full. -/
def State.push (s : State) (ret : Word) : Option State :=
  if h : s.sp.val < 16 then
    some { s with stack := s.stack.set s.sp.val ret h, sp := ⟨s.sp.val + 1, by omega⟩ }
  else none

/-- Pop a return address (R121), or nothing when the stack is empty; the entry keeps its value. -/
def State.pop (s : State) : Option (Word × State) :=
  if h : s.sp.val = 0 then none
  else
    have hk : s.sp.val - 1 < 16 := by have := s.sp.isLt; omega
    some (s.stack[s.sp.val - 1], { s with sp := ⟨s.sp.val - 1, by omega⟩ })

/-! ### Memory -/

/-- What an unlisted address reads as: the default construction contents, FONT at 0x000–0x04F and zero
elsewhere (R29, R271). -/
def background (a : Nat) : Byte := fontByte defaultFont a

/-- `MemRead(a, 1)` (R11). -/
def Memory.read : Memory → Nat → Byte
  | [], a => background a
  | (b, u) :: m, a => if a = b then u else Memory.read m a

/-- Put the cell `(a, v)` in its place in the rising list. -/
def Memory.put : Memory → Nat → Byte → Memory
  | [], a, v => [(a, v)]
  | (b, u) :: m, a, v =>
    if a < b then (a, v) :: (b, u) :: m
    else if a = b then (a, v) :: m
    else (b, u) :: Memory.put m a v

/-- Take the cell at `a` out of the rising list. -/
def Memory.clear : Memory → Nat → Memory
  | [], _ => []
  | (b, u) :: m, a =>
    if a < b then (b, u) :: m
    else if a = b then m
    else (b, u) :: Memory.clear m a

/-- `MemWrite(a, 1, v)` (R11), keeping the canonical form: the value an unlisted address reads as is not
listed. Defined for addresses of the space only; no operation writes elsewhere (R55, log entry 22). -/
def Memory.write (m : Memory) (a : Nat) (v : Byte) : Memory :=
  if a < Config.memSize then
    if v = background a then m.clear a else m.put a v
  else m

/-- The canonical form: addresses strictly rising and inside the space, no cell equal to what its
unlisted address reads as. -/
abbrev Memory.wf (m : Memory) : Prop :=
  m.Pairwise (fun c d => c.1 < d.1) ∧ ∀ c ∈ m, c.1 < Config.memSize ∧ c.2 ≠ background c.1

/-- The memory whose byte at every address of the space is `f`'s, in canonical form. -/
def Memory.ofBytes (f : Nat → Byte) : Memory :=
  (List.range Config.memSize).filterMap
    (fun a => if f a = background a then none else some (a, f a))

/-- Read the byte at `a` (R11). -/
def State.memRead (s : State) (a : Nat) : Byte := s.mem.read a

/-- Write the byte at `a` (R11). -/
def State.memWrite (s : State) (a : Nat) (v : Byte) : State := { s with mem := s.mem.write a v }

/-- Write bytes one at a time at consecutive addresses from `base` upward (R54). -/
def State.storeBytes (s : State) (base : Nat) : List Byte → State
  | [] => s
  | b :: bs => (s.memWrite base b).storeBytes (base + 1) bs

/-- Read `count` bytes one at a time at consecutive addresses from `base` upward (R54). -/
def State.loadBytes (s : State) (base : Nat) : Nat → List Byte
  | 0 => []
  | count + 1 => s.memRead base :: s.loadBytes (base + 1) count

/-- The lowest address beyond 4095 among `base .. base + count - 1`, computed without wrapping, or
nothing when the whole range lies in the space (R55, R170). No byte touched: nothing to check. -/
def firstOutOfRange (base count : Nat) : Option Nat :=
  if count = 0 then none
  else if base > 4095 then some base
  else if base + (count - 1) > 4095 then some 4096
  else none

/-- `Fetch16(pc)` (R11, R101): the big-endian word at pc, or the first address beyond 4095. -/
def State.fetch (s : State) : Except Nat Word :=
  match firstOutOfRange s.pc.toNat 2 with
  | some a => .error a
  | none => .ok (wordOfBytes (s.memRead s.pc.toNat) (s.memRead (s.pc.toNat + 1)))

/-! ### Taking a fault -/

/-- The cause code of R230. -/
def FaultCause.code : FaultCause → Nat
  | .noFault => 0
  | .unsupportedOpcode => 1
  | .stackOverflow => 2
  | .stackUnderflow => 3
  | .fetchOutOfRange => 4
  | .dataOutOfRange => 5

/-- Fault entry (R236) on the state before the step: only `halted` and the record are written, and
`fault.pc` is the fetch address, which pc still holds. -/
def State.raise (s : State) (cause : FaultCause) (word : Word) (addr : Nat) : State :=
  { s with halted := true, fault := ⟨cause, word, s.pc, addr⟩ }

/-- An instruction takes a fault: a next state, in which the machine is halted (R12, R236; log entry 6).
`fault.word` is the instruction's own word (log entry 7). -/
def raiseIn (s : State) (cause : FaultCause) (i : Instr) (addr : Nat) : Result :=
  .next (s.raise cause (encode i) addr)

/-- Run a body after the range check of R170: the whole range `base .. base + count - 1` before any byte
is touched, DATA_OUT_OF_RANGE with the lowest failing address otherwise. -/
def withRange (s : State) (i : Instr) (base count : Nat) (body : State) : Result :=
  match firstOutOfRange base count with
  | some a => raiseIn s .dataOutOfRange i a
  | none => .next body

/-! ### Framebuffer -/

/-- The cell `FB[col, row]` (R30). -/
def FrameBuffer.get (fb : FrameBuffer) (col : Fin 64) (row : Fin 32) : Bool :=
  fb[row.val].getLsbD col.val

/-- `FB[col, row] <- FB[col, row] ^ 1` (R191). -/
def FrameBuffer.flip (fb : FrameBuffer) (col : Fin 64) (row : Fin 32) : FrameBuffer :=
  fb.set row.val (fb[row.val] ^^^ BitVec.twoPow 64 col.val) row.isLt

/-- The framebuffer with every cell 0 (R30, R190). -/
def FrameBuffer.blank : FrameBuffer := Vector.replicate 32 0

/-! ### Step inputs and timers -/

/-- The inputs this step reads (R13): the first one given, or a free draw. -/
def State.input (s : State) : StepInput :=
  match s.inputs with
  | [] => Config.draw s.drawn
  | i :: _ => i

/-- The answer of this step's key query (R210). -/
def State.key (s : State) : Option Key := s.input.key

/-- This step's random byte (R154). -/
def State.rnd (s : State) : Byte := s.input.rnd

/-- Whether the timer gate fires in this step (R242). -/
def State.tick (s : State) : Bool := s.input.tick

/-- This step's inputs are used up; the next step reads the ones after them (log entry 1). -/
def State.nextInput (s : State) : State :=
  match s.inputs with
  | [] => { s with drawn := s.drawn + 1 }
  | _ :: rest => { s with inputs := rest }

/-- The countdown of one timer (R241): a timer at 0 stays at 0. -/
def countdown (tick : Bool) (t : Byte) : Byte :=
  if t = 0 then 0 else if tick then t - 1 else t

/-- `TimerTick` of R110, when this step's tick is true. -/
def State.tickTimers (s : State) : State :=
  { s with DT := countdown s.tick s.DT, ST := countdown s.tick s.ST }

/-- The end of a step (R107, R108): after an instruction that raised no fault, the timers tick; a
faulting step commits nothing more. -/
def State.endStep (s : State) : State :=
  if s.halted then s else s.tickTimers.nextInput

/-- The end of a step on what the instruction answered. -/
def finish : Result → Result
  | .next s => .next s.endStep
  | .fault r => .fault r
  | .refused r => .refused r

end Sys2Proof.Machine
end

