-- ==== Sys2Proof/Machine/Flags.lean ====
section
/-! DEFINITION. The values written to VF as a flag (10_state.md R21, 42_alu.md R147–R153). -/

namespace Sys2Proof.Machine

/-- A flag as a register value, 1 or 0. -/
def flagByte (b : Bool) : Byte := if b then 1 else 0

/-- The carry `sum > 255` (R149). -/
def carryFlag (a b : Byte) : Byte := flagByte (a.toNat + b.toNat > 255)

/-- NOT borrow: 1 when the minuend is strictly greater (R147, R150). -/
def greaterFlag (minuend subtrahend : Byte) : Byte := flagByte (minuend.toNat > subtrahend.toNat)

/-- The old bit 0, shifted out to the right (R151). -/
def shrFlag (a : Byte) : Byte := a &&& 1

/-- The old bit 7, shifted out to the left (R153). -/
def shlFlag (a : Byte) : Byte := (a >>> 7) &&& 1

/-- The SUBN flag (R152) in a state whose Vx is already written; `a` and `b` are the latched Vx and Vy.
CANONICAL compares the latched values, REFERENCE the register file as it is now. -/
def subnFlagOf (mode : SubnFlag) (a b : Byte) (x y : Reg) (written : State) : Byte :=
  match mode with
  | .canonical => greaterFlag b a
  | .reference => greaterFlag (written.v y) (written.v x)

end Sys2Proof.Machine
end

