-- ==== Sys2Proof/Machine/Operands.lean ====
section
/-! DEFINITION. Operand assembly (30_encoding.md R73), the effective addresses and byte layouts of the
memory transfers (20_memory.md R53, 43_index_memory.md), sprite bits (00_scope.md R8) and the key
comparison (45_timers_input.md R210). -/

namespace Sys2Proof.Machine

/-- `zext_16(nnn)` (R73). -/
def addrWord (nnn : Addr) : Word := nnn.setWidth 16

/-- `V[0] + nnn` with no 12-bit mask (R128): at most 0x10FE, so 16 bits hold it. -/
def offsetTarget (v0 : Byte) (nnn : Addr) : Word := BitVec.ofNat 16 (v0.toNat + nnn.toNat)

/-- `I` as an unbounded natural, the address of byte 0 of a transfer (R170). -/
def State.base (s : State) : Nat := s.I.toNat

/-- `(I + k) mod 65536` (R23, D6). -/
def State.indexPlus (s : State) (k : Nat) : Word := s.I + BitVec.ofNat 16 k

/-- `V[x] * 5`, not masked to a nibble (R173). -/
def glyphAddress (v : Byte) : Word := BitVec.ofNat 16 (v.toNat * 5)

/-- Hundreds, tens and ones (R174). -/
def bcdDigits (v : Byte) : List Byte := [v / 100, v / 10 % 10, v % 10]

/-- How many registers V0..Vx are (R73). -/
def blockCount (x : Reg) : Nat := x.val + 1

/-- The values of V0..Vx, V0 first (R175). -/
def State.regBlock (s : State) (x : Reg) : List Byte := s.V.toList.take (blockCount x)

/-- `V[k] <- b` for the bytes of a list, from V[k] upward (R176); there is no register past VF. -/
def State.setBlock (s : State) (k : Nat) : List Byte → State
  | [] => s
  | b :: bs => if h : k < 16 then (s.setV ⟨k, h⟩ b).setBlock (k + 1) bs else s

/-- `rowbit(r, b)`: bit 0 is the most significant (R8). -/
def rowbit (r : Byte) (b : Nat) : Bool := (r >>> (7 - b)).getLsbD 0

/-- Column `(cx + b) mod 64` (R191). -/
def spriteCol (cx : Byte) (b : Nat) : Fin 64 := Fin.ofNat 64 (cx.toNat + b)

/-- Row `(cy + r) mod 32` (R191). -/
def spriteRow (cy : Byte) (r : Nat) : Fin 32 := Fin.ofNat 32 (cy.toNat + r)

/-- `key != NONE and key = V[x]` (R211): the code is compared as a number, and NONE equals nothing. -/
def keyIs (key : Option Key) (v : Byte) : Bool :=
  match key with
  | none => false
  | some k => k.val == v.toNat

/-- A key code as a register value (R216). -/
def keyByte (k : Key) : Byte := BitVec.ofNat 8 k.val

end Sys2Proof.Machine
end

