-- ==== Sys2Proof/Machine/Alu.lean ====
section
/-! DEFINITION. Register loads, arithmetic, logic and random (42_alu.md). Operands are the values before
the instruction (40_cycle.md R105); writes stand in the order of the rule, so that for x = F the later
one decides (R106). -/

namespace Sys2Proof.Machine

/-- `LD Vx, byte` (R141). -/
def execLdImm (x : Reg) (nn : Byte) (s : State) : Result :=
  .next (s.advance.setV x nn)

/-- `ADD Vx, byte`, no carry (R142). -/
def execAddImm (x : Reg) (nn : Byte) (s : State) : Result :=
  .next (s.advance.setV x (s.v x + nn))

/-- `LD Vx, Vy` (R143). -/
def execLdReg (x y : Reg) (s : State) : Result :=
  .next (s.advance.setV x (s.v y))

/-- `OR Vx, Vy` (R144). -/
def execOr (x y : Reg) (s : State) : Result :=
  .next (s.advance.setV x (s.v x ||| s.v y))

/-- `AND Vx, Vy` (R145). -/
def execAnd (x y : Reg) (s : State) : Result :=
  .next (s.advance.setV x (s.v x &&& s.v y))

/-- `XOR Vx, Vy` (R146). -/
def execXor (x y : Reg) (s : State) : Result :=
  .next (s.advance.setV x (s.v x ^^^ s.v y))

/-- `ADD Vx, Vy` (R149): VF, then Vx. -/
def execAddReg (x y : Reg) (s : State) : Result :=
  .next ((s.advance.setV vf (carryFlag (s.v x) (s.v y))).setV x (s.v x + s.v y))

/-- `SUB Vx, Vy` (R150): VF, then Vx. -/
def execSub (x y : Reg) (s : State) : Result :=
  .next ((s.advance.setV vf (greaterFlag (s.v x) (s.v y))).setV x (s.v x - s.v y))

/-- `SHR Vx` (R151): VF, then Vx; Vy is ignored (R76). -/
def execShr (x : Reg) (s : State) : Result :=
  .next ((s.advance.setV vf (shrFlag (s.v x))).setV x (s.v x >>> 1))

/-- `SUBN Vx, Vy` (R152): Vx, then VF, in the mode of this machine. -/
def execSubn (x y : Reg) (s : State) : Result :=
  let t := s.advance.setV x (s.v y - s.v x)
  .next (t.setV vf (subnFlagOf s.subnFlag (s.v x) (s.v y) x y t))

/-- `SHL Vx` (R153): VF, then Vx; Vy is ignored (R76). -/
def execShl (x : Reg) (s : State) : Result :=
  .next ((s.advance.setV vf (shlFlag (s.v x))).setV x (s.v x <<< 1))

/-- `RND Vx, byte` (R154): the step's free random byte, masked. -/
def execRnd (x : Reg) (nn : Byte) (s : State) : Result :=
  .next (s.advance.setV x (s.rnd &&& nn))

end Sys2Proof.Machine
end

