-- ==== Sys2Proof/Machine/ControlFlow.lean ====
section
/-! DEFINITION. Jumps, calls, returns and skips (41_control_flow.md). Each meaning takes the state before
the step and advances pc first (40_cycle.md R102; log entry 8). -/

namespace Sys2Proof.Machine

/-- `RET` (R121). -/
def execRet (s : State) : Result :=
  match s.pop with
  | none => raiseIn s .stackUnderflow .ret 0
  | some (target, t) => .next (t.jump target)

/-- `JP addr` (R122). -/
def execJp (nnn : Addr) (s : State) : Result :=
  .next (s.advance.jump (addrWord nnn))

/-- `CALL addr` (R123): the pushed pc is pc0 + 2. -/
def execCall (nnn : Addr) (s : State) : Result :=
  match s.push s.advance.pc with
  | none => raiseIn s .stackOverflow (.call nnn) 0
  | some t => .next (t.jump (addrWord nnn))

/-- `SE Vx, byte` (R124). -/
def execSeImm (x : Reg) (nn : Byte) (s : State) : Result :=
  .next (s.advance.skipIf (s.v x == nn))

/-- `SNE Vx, byte` (R125). -/
def execSneImm (x : Reg) (nn : Byte) (s : State) : Result :=
  .next (s.advance.skipIf (s.v x != nn))

/-- `SE Vx, Vy` (R126). -/
def execSeReg (x y : Reg) (s : State) : Result :=
  .next (s.advance.skipIf (s.v x == s.v y))

/-- `SNE Vx, Vy` (R127). -/
def execSneReg (x y : Reg) (s : State) : Result :=
  .next (s.advance.skipIf (s.v x != s.v y))

/-- `JP V0, addr` (R128). -/
def execJpV0 (nnn : Addr) (s : State) : Result :=
  .next (s.advance.jump (offsetTarget (s.v 0) nnn))

end Sys2Proof.Machine
end

