-- ==== Sys2Proof/Machine/Display.lean ====
section
/-! DEFINITION. The display instructions and the source's Display Writer: the sprite rasterizer with its
collision detector (44_display.md). -/

namespace Sys2Proof.Machine

/-- One bit of a sprite row onto one cell: XOR, and a collision when both were 1 (R191, R192). The pair
is the framebuffer and the collision so far, which is never cleared mid-blit. -/
def drawBit (col : Fin 64) (lin : Fin 32) (bit : Bool) (p : FrameBuffer × Bool) : FrameBuffer × Bool :=
  if bit then (p.1.flip col lin, p.2 || p.1.get col lin) else p

/-- The 8 bits of one sprite row, most significant first (R191). -/
def drawRow (cx : Byte) (lin : Fin 32) (row : Byte) (p : FrameBuffer × Bool) : FrameBuffer × Bool :=
  (List.range 8).foldl (fun q b => drawBit (spriteCol cx b) lin (rowbit row b) q) p

/-- The rows of a sprite, the first of them row `r` of the blit (R191). -/
def drawRows (cx cy : Byte) (r : Nat) : List Byte → FrameBuffer × Bool → FrameBuffer × Bool
  | [], p => p
  | row :: rows, p => drawRows cx cy (r + 1) rows (drawRow cx (spriteRow cy r) row p)

/-- The whole blit onto a framebuffer, with no collision yet (R191). -/
def drawSprite (cx cy : Byte) (rows : List Byte) (fb : FrameBuffer) : FrameBuffer × Bool :=
  drawRows cx cy 0 rows (fb, false)

/-- The sprite rows of height `n` at I (R191). -/
def State.spriteRows (s : State) (n : Nibble) : List Byte := s.loadBytes s.base n.toNat

/-- `CLS` (R190). -/
def execCls (s : State) : Result :=
  .next { s.advance with FB := FrameBuffer.blank }

/-- `DRW Vx, Vy, nibble` (R191): origin (V[x], V[y]) latched before VF is written, height n; no byte is
checked or read for n = 0. -/
def execDrw (x y : Reg) (n : Nibble) (s : State) : Result :=
  let drawn := drawSprite (s.v x) (s.v y) (s.spriteRows n) s.FB
  withRange s (.drw x y n) s.base n.toNat
    ({ s.advance with FB := drawn.1 }.setV vf (flagByte drawn.2))

end Sys2Proof.Machine
end

