-- ==== Sys2Proof/Machine/IndexMemory.lean ====
section
/-! DEFINITION. The index register and the memory transfers (43_index_memory.md). -/

namespace Sys2Proof.Machine

/-- `I <- v`, the one write of the index register (R23). -/
def State.setI (s : State) (v : Word) : State := { s with I := v }

/-- `LD I, addr` (R171). -/
def execLdI (nnn : Addr) (s : State) : Result :=
  .next (s.advance.setI (addrWord nnn))

/-- `ADD I, Vx` (R172): no flag and no check. -/
def execAddI (x : Reg) (s : State) : Result :=
  .next (s.advance.setI (s.indexPlus (s.v x).toNat))

/-- `LD F, Vx` (R173). -/
def execLdF (x : Reg) (s : State) : Result :=
  .next (s.advance.setI (glyphAddress (s.v x)))

/-- `LD B, Vx` (R174). -/
def execLdB (x : Reg) (s : State) : Result :=
  withRange s (.ldB x) s.base 3 (s.advance.storeBytes s.base (bcdDigits (s.v x)))

/-- `LD [I], Vx` (R175). -/
def execLdMemVx (x : Reg) (s : State) : Result :=
  withRange s (.ldMemVx x) s.base (blockCount x)
    ((s.advance.storeBytes s.base (s.regBlock x)).setI (s.indexPlus (blockCount x)))

/-- `LD Vx, [I]` (R176). -/
def execLdVxMem (x : Reg) (s : State) : Result :=
  withRange s (.ldVxMem x) s.base (blockCount x)
    ((s.advance.setBlock 0 (s.loadBytes s.base (blockCount x))).setI (s.indexPlus (blockCount x)))

end Sys2Proof.Machine
end

