-- ==== Sys2Proof/Machine/TimersInput.lean ====
section
/-! DEFINITION. Key input and timer access (45_timers_input.md). The tick itself is at the end of the
step (40_cycle.md R107), so these read and write the timers before it. -/

namespace Sys2Proof.Machine

/-- `SKP Vx` (R211). -/
def execSkp (x : Reg) (s : State) : Result :=
  .next (s.advance.skipIf (keyIs s.key (s.v x)))

/-- `SKNP Vx` (R212). -/
def execSknp (x : Reg) (s : State) : Result :=
  .next (s.advance.skipIf (!keyIs s.key (s.v x)))

/-- `LD Vx, DT` (R213). -/
def execLdVxDt (x : Reg) (s : State) : Result :=
  .next (s.advance.setV x s.DT)

/-- `LD DT, Vx` (R214). -/
def execLdDtVx (x : Reg) (s : State) : Result :=
  .next { s.advance with DT := s.v x }

/-- `LD ST, Vx` (R215). -/
def execLdStVx (x : Reg) (s : State) : Result :=
  .next { s.advance with ST := s.v x }

/-- What `LD Vx, K` does with the answer of the key query, from the advanced state (R216): rewind pc to
the instruction itself, or take the key. -/
def State.takeKey (s : State) (x : Reg) : Option Key → State
  | none => s.jump (s.pc - 2)
  | some k => s.setV x (keyByte k)

/-- `LD Vx, K` (R216): with no key the retry outcome, a normal completion. -/
def execLdVxK (x : Reg) (s : State) : Result :=
  .next (s.advance.takeKey x s.key)

end Sys2Proof.Machine
end

