-- ==== Sys2Proof/Machine/Step.lean ====
section
/-! DEFINITION. One step of the machine (40_cycle.md R100–R110). -/

namespace Sys2Proof.Machine

/-- Decode and execute a fetched word (R103, R104), then end the step (R107, R108). -/
def runWord (w : Word) (s : State) : Result :=
  match decode w with
  | .error _ => .next (s.raise .unsupportedOpcode w 0)
  | .ok i => finish (exec i s)

/-- The whole step of R110: none on a halted machine; otherwise fetch, decode, execute and tick, in the
order of priority of R237. A fault is taken (R236): it is a next state, in which the machine is halted. -/
def step (s : State) : Host.Outcome State Fault Refusal :=
  if s.halted then .fault (.halted s.fault)
  else match s.fetch with
    | .error a => .next (s.raise .fetchOutOfRange 0 a)
    | .ok w => runWord w s

/-- The instruction of an opcode-table row stored where the next step fetches, big-endian (R52): it
stands for the load of a program from outside (R275, log entry 20). -/
def State.withFetchWord (s : State) (nbits w : Nat) : State :=
  s.storeBytes s.pc.toNat (bytesOfWord (tableWord nbits w))

end Sys2Proof.Machine
end

