-- ==== Sys2Proof/Machine/Construct.lean ====
section
/-! DEFINITION. The two constructors, the machine's only reset (70_reset_and_hazards.md R270–R273,
60_exceptions.md R258). The parameters of 00_scope.md R6 are their arguments. -/

namespace Sys2Proof.Machine

/-- Why no machine is created. -/
inductive ConstructionError where
  /-- "invalid memory size" (R273). -/
  | invalidMemorySize
  deriving DecidableEq, Repr

/-- The byte at `a` after construction (R272): the image from address 0, zero after it, and the font
written last. -/
def constructedByte (font : Font) (img : List Byte) (a : Nat) : Byte :=
  if a < 80 then fontByte font a else img.getD a 0

/-- The machine constructed from an image that fits (R272): its memory and its `SUBN_FLAG`, everything
else as R271 has it. -/
def constructed (font : Font) (mode : SubnFlag) (img : List Byte) : State :=
  { State.reset with mem := Memory.ofBytes (constructedByte font img), subnFlag := mode }

/-- The image constructor (R272, R273), for any `FONT` and `SUBN_FLAG`. -/
def construct (font : Font) (mode : SubnFlag) (img : List Byte) : Except ConstructionError State :=
  if imageFits img then .ok (constructed font mode img) else .error .invalidMemorySize

/-- The default constructor (R271): memory zeroed, then the font. -/
def constructDefault (font : Font) (mode : SubnFlag) : State := constructed font mode []

end Sys2Proof.Machine
end

