-- ==== Sys2Proof/Machine/Ports.lean ====
section
/-! DEFINITION. The output ports, each a reading of the state between two steps (60_exceptions.md
R250–R256). The input ports are the three step inputs of `State.input`. -/

namespace Sys2Proof.Machine

/-- `audio_on = (ST != 0)` (R252). -/
def State.audioOn (s : State) : Bool := s.ST != 0

/-- The two commands to the audio collaborator (R252). -/
inductive ToneEvent where
  | startTone
  | stopTone
  deriving DecidableEq, Repr

/-- The command issued between two consecutive states (R252, D24). -/
def toneEvent (before after : State) : Option ToneEvent :=
  match before.audioOn, after.audioOn with
  | false, true => some .startTone
  | true, false => some .stopTone
  | _, _ => none

/-- The framebuffer snapshot: 2048 cells, cell `col + row·64` at that index (R254, R30). -/
def State.fbRead (s : State) : List Bool :=
  (List.range 2048).map
    (fun k => s.FB.get (Fin.ofNat 64 k) (Fin.ofNat 32 (k / 64)))

/-- What the fault outputs show (R255). -/
def State.faultOutputs (s : State) : Bool × FaultRecord := (s.halted, s.fault)

/-- What the state-inspection port shows (R256): no timer and no stack entry. -/
structure Inspection where
  pc : Word
  I : Word
  sp : Fin 17
  V : List Byte
  memory : List Byte
  deriving DecidableEq, Repr

/-- The inspection port's copy (R256). -/
def State.inspect (s : State) : Inspection where
  pc := s.pc
  I := s.I
  sp := s.sp
  V := s.V.toList
  memory := (List.range Config.memSize).map s.memRead

end Sys2Proof.Machine
end

