-- ==== Sys2Proof/Safety.lean ====
section
/-! DEFINITION. The terms claims use: the status of a state (70_reset_and_hazards.md R277), safe runs,
fairness (60_exceptions.md R242), frames, fault entries, trap conditions, the sprite's cells and the
invariant of the machine. -/

namespace Sys2Proof.Machine

/-! ### The end of a run -/

/-- The word at pc is `1nnn` with `nnn = pc`, in a machine that is not halted (R277 (b)). -/
def State.parked (s : State) : Bool :=
  match s.halted, s.fetch with
  | false, .ok w => opField w == 1 && addrWord (nnnField w) == s.pc
  | _, _ => false

/-- The three statuses of R277. -/
inductive RunStatus where
  | faulted
  | parked
  | running
  deriving DecidableEq, Repr

/-- The status of a state (R277). -/
def State.status (s : State) : RunStatus :=
  if s.halted then .faulted else if s.parked then .parked else .running

/-- `k` steps from `s` are all taken and none of them faults. -/
def SafeRun (k : Nat) (s : State) : Prop :=
  ∃ t, core.run k s = .next t ∧ State.halted t = false

/-- Weak fairness (R242): in an infinite sequence of inputs, the tick is true infinitely often. -/
def TickFair (draws : Nat → StepInput) : Prop :=
  ∀ n, ∃ m, n ≤ m ∧ (draws m).tick = true

/-- The word the next step fetches, read at pc and pc + 1 (R52, R101). -/
def State.wordAtPc (s : State) : Word :=
  wordOfBytes (s.memRead s.pc.toNat) (s.memRead (s.pc.toNat + 1))

/-- The next step of a machine that is not halted runs this instruction: pc is fetchable and the word
there decodes to it (R101, R103). -/
structure Runs (s : State) (i : Instr) : Prop where
  running : s.halted = false
  fetchable : s.pc.toNat ≤ 4094
  decoded : decode s.wordAtPc = .ok i

/-! ### Frames and faults -/

/-- What a frame lets an instruction change; everything else of the state is kept. -/
structure Writes where
  regs : List Reg := []
  index : Bool := false
  callStack : Bool := false
  delay : Bool := false
  sound : Bool := false
  display : Bool := false
  /-- The stored bytes: `memCount` of them from `memBase` upward. -/
  memBase : Nat := 0
  memCount : Nat := 0
  deriving DecidableEq, Repr

/-- From `s` to `t` nothing changed but what `w` names and the program counter. -/
structure Frame (w : Writes) (s t : State) : Prop where
  regs : ∀ r, r ∉ w.regs → t.v r = s.v r
  index : w.index = false → t.I = s.I
  sp : w.callStack = false → t.sp = s.sp
  stack : w.callStack = false → t.stack = s.stack
  delay : w.delay = false → t.DT = s.DT
  sound : w.sound = false → t.ST = s.ST
  display : w.display = false → t.FB = s.FB
  memory : ∀ a, ¬ (w.memBase ≤ a ∧ a < w.memBase + w.memCount) → t.memRead a = s.memRead a
  halted : t.halted = s.halted
  fault : t.fault = s.fault
  subnFlag : t.subnFlag = s.subnFlag
  inputs : t.inputs = s.inputs
  drawn : t.drawn = s.drawn

/-- From `s` to `t` a fault was taken (R236): the record is written, the machine is halted, and
everything else, pc included, keeps its value from before the step. -/
structure TakesFault (s t : State) (cause : FaultCause) (word : Word) (addr : Nat) : Prop where
  frame : Frame {} { s with halted := true, fault := ⟨cause, word, s.pc, addr⟩ } t
  pc : t.pc = s.pc

/-- When an instruction itself raises a fault (R237): RET, CALL and the four range checks. -/
def trapsIn (i : Instr) (s : State) : Prop :=
  match i with
  | .ret => s.sp.val = 0
  | .call _ => s.sp.val = 16
  | .drw _ _ n => 0 < n.toNat ∧ 4095 < s.I.toNat + n.toNat - 1
  | .ldB _ => 4095 < s.I.toNat + 2
  | .ldMemVx x => 4095 < s.I.toNat + x.val
  | .ldVxMem x => 4095 < s.I.toNat + x.val
  | .cls | .jp _ | .seImm _ _ | .sneImm _ _ | .seReg _ _ | .ldImm _ _ | .addImm _ _ | .ldReg _ _
  | .or _ _ | .and _ _ | .xor _ _ | .addReg _ _ | .sub _ _ | .shr _ _ | .subn _ _ | .shl _ _
  | .sneReg _ _ | .ldI _ | .jpV0 _ | .rnd _ _ | .skp _ | .sknp _ | .ldVxDt _ | .ldVxK _ | .ldDtVx _
  | .ldStVx _ | .addI _ | .ldF _ => False

/-- The instruction names this register as its destination (R21, R22). -/
def namesDest (i : Instr) (r : Reg) : Prop :=
  match i with
  | .ldImm x _ | .addImm x _ | .ldReg x _ | .or x _ | .and x _ | .xor x _ | .addReg x _ | .sub x _
  | .shr x _ | .subn x _ | .shl x _ | .rnd x _ | .ldVxDt x | .ldVxK x => r = x
  | .ldVxMem x => r ≤ x
  | .cls | .ret | .jp _ | .call _ | .seImm _ _ | .sneImm _ _ | .seReg _ _ | .sneReg _ _ | .ldI _
  | .jpV0 _ | .drw _ _ _ | .skp _ | .sknp _ | .ldDtVx _ | .ldStVx _ | .addI _ | .ldF _ | .ldB _
  | .ldMemVx _ => False

/-- The instruction writes VF as a side effect, whatever its x (R21). -/
def writesFlag (i : Instr) : Prop :=
  match i with
  | .addReg _ _ | .sub _ _ | .shr _ _ | .subn _ _ | .shl _ _ | .drw _ _ _ => True
  | .cls | .ret | .jp _ | .call _ | .seImm _ _ | .sneImm _ _ | .seReg _ _ | .ldImm _ _ | .addImm _ _
  | .ldReg _ _ | .or _ _ | .and _ _ | .xor _ _ | .sneReg _ _ | .ldI _ | .jpV0 _ | .rnd _ _ | .skp _
  | .sknp _ | .ldVxDt _ | .ldVxK _ | .ldDtVx _ | .ldStVx _ | .addI _ | .ldF _ | .ldB _ | .ldMemVx _
  | .ldVxMem _ => False

/-- The instruction makes the key query (R13, R210). -/
def readsKey (i : Instr) : Prop :=
  ∃ x, i = .skp x ∨ i = .sknp x ∨ i = .ldVxK x

/-- The instruction reads the random byte (R13, R154). -/
def readsRnd (i : Instr) : Prop :=
  ∃ x nn, i = .rnd x nn

/-! ### Sprites -/

/-- The cell is in the set S of R194: some set bit of some sprite row falls on it. -/
def inSprite (s : State) (x y : Reg) (n : Nibble) (col : Fin 64) (row : Fin 32) : Prop :=
  ∃ r b : Nat, r < n.toNat ∧ b < 8 ∧ rowbit (s.memRead (s.I.toNat + r)) b = true ∧
    ((s.v x).toNat + b) % 64 = col.val ∧ ((s.v y).toNat + r) % 32 = row.val

/-! ### The invariant -/

/-- What every state of a run satisfies: the memory is canonical, pc and every stack entry stay within
the reach of R34, and the fault record is NONE exactly while the machine is not halted (R31). -/
structure Inv (s : State) : Prop where
  memory : s.mem.wf
  pc : s.pc.toNat ≤ 0x10FE
  stack : ∀ k : Fin 16, s.stack[k].toNat ≤ 0x1000
  running : s.halted = false → s.fault = FaultRecord.none
  stopped : s.halted = true → s.fault.cause ≠ .noFault

/-- A state whose next step reads exactly these inputs. -/
def State.withInput (s : State) (i : StepInput) : State := { s with inputs := [i] }

end Sys2Proof.Machine
end

