-- ==== Sys2Proof/Certificates/Slice0/Obligations.lean ====
section
/-! DEFINITION. The statements for the provers, from the numbered rules of spec/. A state is named `s`
before and `t` after; `exec i s` takes the state before the step, so `s.pc` is the fetch address pc0. -/

open Sys2Proof Sys2Proof.Machine

/-! ### Encoding (30_encoding.md) -/

/-- R75, R7: words written out from the opcode map decode to the instruction they stand for. -/
def Obligations.SpecWordsDecode : Prop :=
  decode 0x00E0 = .ok .cls ∧ decode 0x00EE = .ok .ret ∧ decode 0x1234 = .ok (.jp 0x234) ∧
  decode 0x2300 = .ok (.call 0x300) ∧ decode 0x6A42 = .ok (.ldImm 10 0x42) ∧
  decode 0x8356 = .ok (.shr 3 5) ∧ decode 0xA2F0 = .ok (.ldI 0x2F0) ∧
  decode 0xD015 = .ok (.drw 0 1 5) ∧ decode 0xE19E = .ok (.skp 1) ∧ decode 0xF265 = .ok (.ldVxMem 2)

/-- R71, R75: no bit of an encoding is dropped, for every instruction and every operand value. -/
def Obligations.DecodeOfEncode : Prop :=
  ∀ i : Instr, decode (encode i) = .ok i

/-- R71, R75, R76: every word the decoder accepts is the word of the instruction it gives. -/
def Obligations.EncodeOfDecode : Prop :=
  ∀ (w : Word) (i : Instr), decode w = .ok i → encode i = w

/-- R77, R79: every word is one of the 34 instructions or rejected by name with the raw word; never both. -/
def Obligations.DecoderIsTotal : Prop :=
  ∀ w : Word,
    (supportedWord w = true ∧ ∃ i, decode w = .ok i) ∨
    (supportedWord w = false ∧ decode w = .error (.unsupportedOpcode w))

/-- No word selects two rows of the opcode map R75 (R74 marks this as the spec's own inference from R75). -/
def Obligations.OpcodeRowsDisjoint : Prop :=
  opcodeMap.Pairwise (fun p q => ∀ w : Word, ¬ (p.selects w = true ∧ q.selects w = true))

/-- R75, R103: the decoder gives the instruction of the row that the word selects. -/
def Obligations.DecodePicksSelectedRow : Prop :=
  ∀ (w : Word) (i : Instr) (row : OpcodeRow), decode w = .ok i → row ∈ opcodeMap →
    row.selects w = true → row.mnemonic = i.mnemonic

/-! ### The step and its faults (40_cycle.md, 60_exceptions.md) -/

/-- R101–R104: a step runs the instruction that the bytes at pc decode to, on this state, then ends the step. -/
def Obligations.StepRunsDecodedInstr : Prop :=
  ∀ (s : State) (i : Instr), Runs s i → step s = finish (exec i s)

/-- R107, R241: after an instruction that raised no fault, this step's tick counts both timers down, a
timer at 0 stays at 0 (the spec's decision D13, log entry 13), one input is used up (the model's own fields, log
entry 1), and nothing else changes. -/
def Obligations.StepEndsWithTick : Prop :=
  ∀ (s : State) (i : Instr) (u : State), Runs s i → exec i s = .next u → u.halted = false →
    ∃ t, step s = .next t ∧
      t.DT.toNat = (if s.tick then u.DT.toNat - 1 else u.DT.toNat) ∧
      t.ST.toNat = (if s.tick then u.ST.toNat - 1 else u.ST.toNat) ∧
      t.inputs = s.inputs.tail ∧
      t.drawn = (if s.inputs = [] then s.drawn + 1 else s.drawn) ∧
      t = { u with DT := t.DT, ST := t.ST, inputs := t.inputs, drawn := t.drawn }

/-- R100, R238: a halted machine takes no step. That it answers the fault named halted, with the
record, is the model's choice (log entry 6). -/
def Obligations.HaltedTakesNoStep : Prop :=
  ∀ s : State, s.halted = true → step s = .fault (.halted s.fault)

/-- R100: a machine that is not halted always takes its step, and only such a machine does. R100 tells a
faulting step apart from a completed one; that both answer a next state is the model's choice (log entry 6). -/
def Obligations.StepAnswersWhileRunning : Prop :=
  ∀ s : State, (∃ t, step s = .next t) ↔ s.halted = false

/-- R234, R101: the fetch fault, with word 0 and the first address beyond 4095. The record (R230) and that
everything else is kept (R236) are the spec's decision D16 (log entry 28); that the fault is a next state is
the model's choice (log entry 6). -/
def Obligations.FetchOutOfRangeFaults : Prop :=
  ∀ s : State, s.halted = false → 4094 < s.pc.toNat →
    ∃ t, step s = .next t ∧
      TakesFault s t .fetchOutOfRange 0 (if 4095 < s.pc.toNat then s.pc.toNat else 4096)

/-- R231, R103: a fetched word that matches no pattern is fatal, carries the word, and leaves the rest as it
was. The record (R230) and the halted state (R236) are the spec's decision D16 (log entry 28); that the fault
is a next state is the model's choice (log entry 6). -/
def Obligations.UnsupportedOpcodeFaults : Prop :=
  ∀ s : State, s.halted = false → s.pc.toNat ≤ 4094 → supportedWord s.wordAtPc = false →
    ∃ t, step s = .next t ∧ TakesFault s t .unsupportedOpcode s.wordAtPc 0

/-- R236, with the record of R230: a step that raises a fault discards every write, records its cause,
word, fetch address and first bad address, and halts for good. The record and the precise halted state are
the spec's decision D16 (log entries 6 and 28). -/
def Obligations.FaultsArePrecise : Prop :=
  ∀ s t : State, step s = .next t → t.halted = true →
    (∃ (cause : FaultCause) (addr : Nat),
      cause ≠ .noFault ∧
      TakesFault s t cause (if cause = .fetchOutOfRange then 0 else s.wordAtPc) addr ∧
      (cause = .fetchOutOfRange → addr = if 4095 < s.pc.toNat then s.pc.toNat else 4096) ∧
      (cause = .dataOutOfRange → addr = if 4095 < s.I.toNat then s.I.toNat else 4096) ∧
      (cause ≠ .fetchOutOfRange → cause ≠ .dataOutOfRange → addr = 0)) ∧
    step t = .fault (.halted t.fault)

/-- R230, R237: only a fetch beyond 4095, an unsupported word and the named checks halt the machine. The
halted state is the spec's decision D16 (log entry 28), as a next state the model's choice (log entry 6). -/
def Obligations.HaltsExactlyOnFaults : Prop :=
  ∀ s t : State, step s = .next t →
    (t.halted = true ↔
      4094 < s.pc.toNat ∨
      (s.pc.toNat ≤ 4094 ∧ supportedWord s.wordAtPc = false) ∨
      ∃ i, Runs s i ∧ trapsIn i s)

/-! ### Control flow (41_control_flow.md) -/

/-- R121: RET faults on an empty stack and otherwise pops the newest entry into pc. The record (R230) and the
halted state (R236) are the spec's decision D16 (log entry 28), as a next state the model's choice (log entry
6), with the instruction's encoding as the word (log entry 7). -/
def Obligations.RetPopsOrUnderflows : Prop :=
  encode .ret = 0x00EE ∧
  (∀ s : State, s.sp.val = 0 →
    ∃ t, exec .ret s = .next t ∧ TakesFault s t .stackUnderflow 0x00EE 0) ∧
  (∀ (s : State) (k : Fin 16), s.sp.val = k.val + 1 →
    ∃ t, exec .ret s = .next t ∧ t.sp.val = k.val ∧ t.pc = s.stack[k] ∧ t.stack = s.stack ∧
      Frame { callStack := true } s t)

/-- R123: CALL faults on a full stack and otherwise pushes pc0 + 2 and jumps. The record (R230) and the
halted state (R236) are the spec's decision D16 (log entry 28), as a next state the model's choice (log entry
6), with the instruction's encoding as the word (log entry 7). -/
def Obligations.CallPushesOrOverflows : Prop :=
  ∀ (nnn : Addr) (s : State),
    (encode (.call nnn)).toNat = 0x2000 + nnn.toNat ∧
    (s.sp.val = 16 →
      ∃ t, exec (.call nnn) s = .next t ∧ TakesFault s t .stackOverflow (encode (.call nnn)) 0) ∧
    (∀ k : Fin 16, s.sp.val = k.val →
      ∃ t, exec (.call nnn) s = .next t ∧ t.sp.val = k.val + 1 ∧ t.stack[k] = s.pc + 2 ∧
        (∀ j : Fin 16, j ≠ k → t.stack[j] = s.stack[j]) ∧ t.pc.toNat = nnn.toNat ∧
        Frame { callStack := true } s t)

/-- R122, R128: the jumps write their target to pc and nothing else; Bnnn adds V0 without a mask (the
spec's decision D8, log entry 11). -/
def Obligations.JumpsWriteTarget : Prop :=
  ∀ (nnn : Addr) (s : State),
    (encode (.jp nnn)).toNat = 0x1000 + nnn.toNat ∧
    (encode (.jpV0 nnn)).toNat = 0xB000 + nnn.toNat ∧
    (∃ t, exec (.jp nnn) s = .next t ∧ t.pc.toNat = nnn.toNat ∧ Frame {} s t) ∧
    (∃ t, exec (.jpV0 nnn) s = .next t ∧ t.pc.toNat = (s.v 0).toNat + nnn.toNat ∧ Frame {} s t)

/-- R124, R125: the skips on an immediate change pc alone. -/
def Obligations.ImmediateSkips : Prop :=
  ∀ (x : Reg) (nn : Byte) (s : State),
    (encode (.seImm x nn)).toNat = 0x3000 + 0x100 * x.val + nn.toNat ∧
    (encode (.sneImm x nn)).toNat = 0x4000 + 0x100 * x.val + nn.toNat ∧
    (∃ t, exec (.seImm x nn) s = .next t ∧
      t.pc = s.pc + (if (s.v x).toNat = nn.toNat then 4 else 2) ∧ Frame {} s t) ∧
    (∃ t, exec (.sneImm x nn) s = .next t ∧
      t.pc = s.pc + (if (s.v x).toNat ≠ nn.toNat then 4 else 2) ∧ Frame {} s t)

/-- R126, R127: the skips on two registers change pc alone. -/
def Obligations.RegisterSkips : Prop :=
  ∀ (x y : Reg) (s : State),
    (encode (.seReg x y)).toNat = 0x5000 + 0x100 * x.val + 0x10 * y.val ∧
    (encode (.sneReg x y)).toNat = 0x9000 + 0x100 * x.val + 0x10 * y.val ∧
    (∃ t, exec (.seReg x y) s = .next t ∧
      t.pc = s.pc + (if (s.v x).toNat = (s.v y).toNat then 4 else 2) ∧ Frame {} s t) ∧
    (∃ t, exec (.sneReg x y) s = .next t ∧
      t.pc = s.pc + (if (s.v x).toNat ≠ (s.v y).toNat then 4 else 2) ∧ Frame {} s t)

/-- R121, R123: a RET right after a CALL restores pc to the word after the CALL and sp to its old value;
of the stack only the entry the CALL wrote differs. -/
def Obligations.CallThenRetRestores : Prop :=
  ∀ (nnn : Addr) (s : State), s.sp.val < 16 →
    ∃ t u, exec (.call nnn) s = .next t ∧ exec .ret t = .next u ∧
      u.pc = s.pc + 2 ∧ u.sp = s.sp ∧
      (∀ j : Fin 16, j.val ≠ s.sp.val → u.stack[j] = s.stack[j]) ∧ Frame { callStack := true } s u

/-! ### Arithmetic and logic (42_alu.md) -/

/-- R141, R143: the register loads. -/
def Obligations.RegisterLoads : Prop :=
  ∀ (x y : Reg) (nn : Byte) (s : State),
    (encode (.ldImm x nn)).toNat = 0x6000 + 0x100 * x.val + nn.toNat ∧
    (encode (.ldReg x y)).toNat = 0x8000 + 0x100 * x.val + 0x10 * y.val ∧
    (∃ t, exec (.ldImm x nn) s = .next t ∧ t.v x = nn ∧ t.pc = s.pc + 2 ∧ Frame { regs := [x] } s t) ∧
    (∃ t, exec (.ldReg x y) s = .next t ∧ t.v x = s.v y ∧ t.pc = s.pc + 2 ∧
      Frame { regs := [x] } s t)

/-- R142: the sum wraps modulo 256 and no carry is written. -/
def Obligations.AddImmediateWraps : Prop :=
  ∀ (x : Reg) (nn : Byte) (s : State),
    (encode (.addImm x nn)).toNat = 0x7000 + 0x100 * x.val + nn.toNat ∧
    ∃ t, exec (.addImm x nn) s = .next t ∧
      (t.v x).toNat = ((s.v x).toNat + nn.toNat) % 256 ∧ t.pc = s.pc + 2 ∧
      Frame { regs := [x] } s t

/-- R144, R145, R146: OR, AND and XOR, bit by bit, with VF kept unless it is Vx. -/
def Obligations.LogicIsBitwise : Prop :=
  ∀ (x y : Reg) (s : State),
    (encode (.or x y)).toNat = 0x8001 + 0x100 * x.val + 0x10 * y.val ∧
    (encode (.and x y)).toNat = 0x8002 + 0x100 * x.val + 0x10 * y.val ∧
    (encode (.xor x y)).toNat = 0x8003 + 0x100 * x.val + 0x10 * y.val ∧
    (∃ t, exec (.or x y) s = .next t ∧ t.pc = s.pc + 2 ∧ Frame { regs := [x] } s t ∧
      ∀ k, k < 8 → (t.v x).getLsbD k = ((s.v x).getLsbD k || (s.v y).getLsbD k)) ∧
    (∃ t, exec (.and x y) s = .next t ∧ t.pc = s.pc + 2 ∧ Frame { regs := [x] } s t ∧
      ∀ k, k < 8 → (t.v x).getLsbD k = ((s.v x).getLsbD k && (s.v y).getLsbD k)) ∧
    (∃ t, exec (.xor x y) s = .next t ∧ t.pc = s.pc + 2 ∧ Frame { regs := [x] } s t ∧
      ∀ k, k < 8 → (t.v x).getLsbD k = ((s.v x).getLsbD k != (s.v y).getLsbD k))

/-- R149: the sum modulo 256 in Vx and the carry in VF; for x = F the sum wins (R106, the spec's decision
D9, log entry 9). -/
def Obligations.AddRegisterCarries : Prop :=
  ∀ (x y : Reg) (s : State),
    (encode (.addReg x y)).toNat = 0x8004 + 0x100 * x.val + 0x10 * y.val ∧
    ∃ t, exec (.addReg x y) s = .next t ∧
      (t.v x).toNat = ((s.v x).toNat + (s.v y).toNat) % 256 ∧
      (x ≠ vf → t.v vf = if 255 < (s.v x).toNat + (s.v y).toNat then 1 else 0) ∧
      t.pc = s.pc + 2 ∧ Frame { regs := [x, vf] } s t

/-- R150: the difference modulo 256 in Vx and the strict comparison in VF; for x = F the difference wins
(R106, the spec's decision D9, log entry 9). -/
def Obligations.SubBorrows : Prop :=
  ∀ (x y : Reg) (s : State),
    (encode (.sub x y)).toNat = 0x8005 + 0x100 * x.val + 0x10 * y.val ∧
    ∃ t, exec (.sub x y) s = .next t ∧
      (t.v x).toNat = ((s.v x).toNat + 256 - (s.v y).toNat) % 256 ∧
      (x ≠ vf → t.v vf = if (s.v y).toNat < (s.v x).toNat then 1 else 0) ∧
      t.pc = s.pc + 2 ∧ Frame { regs := [x, vf] } s t

/-- R151, R153: one-bit shifts of Vx with the bit shifted out in VF; y is ignored; for x = F the shifted
value wins (R106, the spec's decision D9, log entry 9). -/
def Obligations.ShiftsByOne : Prop :=
  ∀ (x y : Reg) (s : State),
    (encode (.shr x y)).toNat = 0x8006 + 0x100 * x.val + 0x10 * y.val ∧
    (encode (.shl x y)).toNat = 0x800E + 0x100 * x.val + 0x10 * y.val ∧
    (∃ t, exec (.shr x y) s = .next t ∧ (t.v x).toNat = (s.v x).toNat / 2 ∧
      (x ≠ vf → (t.v vf).toNat = (s.v x).toNat % 2) ∧
      t.pc = s.pc + 2 ∧ Frame { regs := [x, vf] } s t) ∧
    (∃ t, exec (.shl x y) s = .next t ∧ (t.v x).toNat = (s.v x).toNat * 2 % 256 ∧
      (x ≠ vf → (t.v vf).toNat = (s.v x).toNat / 128) ∧
      t.pc = s.pc + 2 ∧ Frame { regs := [x, vf] } s t)

/-- R152: the reverse difference in Vx, then the flag in VF: CANONICAL compares the latched operands;
REFERENCE the registers after Vx was written (so Vy is the new Vx for x = y). VF ends as the flag, x = F
included. Two modes: the spec's decision D10 (log entry 2); the direction of the REFERENCE comparison is the
spec's own reading U23 (log entry 27). -/
def Obligations.SubnInBothModes : Prop :=
  ∀ (x y : Reg) (s : State),
    (encode (.subn x y)).toNat = 0x8007 + 0x100 * x.val + 0x10 * y.val ∧
    ∃ t, exec (.subn x y) s = .next t ∧
      (x ≠ vf → (t.v x).toNat = ((s.v y).toNat + 256 - (s.v x).toNat) % 256) ∧
      (s.subnFlag = .canonical →
        t.v vf = if (s.v x).toNat < (s.v y).toNat then 1 else 0) ∧
      (s.subnFlag = .reference →
        t.v vf = if x ≠ y ∧ ((s.v y).toNat + 256 - (s.v x).toNat) % 256 < (s.v y).toNat
          then 1 else 0) ∧
      t.pc = s.pc + 2 ∧ Frame { regs := [x, vf] } s t

/-- R152, C10: away from VF the two modes give the same Vx, and another VF in exactly two cases
(R152's own derivation; the modes are the spec's decision D10, log entry 2). -/
def Obligations.SubnModesDiffer : Prop :=
  ∀ (x y : Reg) (s : State), x ≠ y → x ≠ vf → y ≠ vf →
    ∃ t u, exec (.subn x y) { s with subnFlag := .canonical } = .next t ∧
      exec (.subn x y) { s with subnFlag := .reference } = .next u ∧
      t.v x = u.v x ∧
      (t.v vf ≠ u.v vf ↔
        ((s.v x).toNat = 0 ∧ 0 < (s.v y).toNat) ∨ (s.v x = s.v y ∧ 0 < (s.v x).toNat))

/-- R154: the step's random byte, whatever it is (the spec's decision D11, log entries 1 and 5), masked by nn. -/
def Obligations.RandomIsMasked : Prop :=
  ∀ (x : Reg) (nn : Byte) (s : State),
    (encode (.rnd x nn)).toNat = 0xC000 + 0x100 * x.val + nn.toNat ∧
    ∃ t, exec (.rnd x nn) s = .next t ∧ t.pc = s.pc + 2 ∧ Frame { regs := [x] } s t ∧
      ∀ k, k < 8 → (t.v x).getLsbD k = (s.input.rnd.getLsbD k && nn.getLsbD k)

/-! ### Index register and memory (43_index_memory.md) -/

/-- R171, R172, R173: the three writes of I that touch no memory; no flag and no range
check; I wraps at 65536 (the spec's decision D6, log entry 10). -/
def Obligations.IndexWrites : Prop :=
  ∀ (x : Reg) (nnn : Addr) (s : State),
    (encode (.ldI nnn)).toNat = 0xA000 + nnn.toNat ∧
    (encode (.addI x)).toNat = 0xF01E + 0x100 * x.val ∧
    (encode (.ldF x)).toNat = 0xF029 + 0x100 * x.val ∧
    (∃ t, exec (.ldI nnn) s = .next t ∧ t.I.toNat = nnn.toNat ∧ t.pc = s.pc + 2 ∧
      Frame { index := true } s t) ∧
    (∃ t, exec (.addI x) s = .next t ∧ t.I.toNat = (s.I.toNat + (s.v x).toNat) % 65536 ∧
      t.pc = s.pc + 2 ∧ Frame { index := true } s t) ∧
    (∃ t, exec (.ldF x) s = .next t ∧ t.I.toNat = (s.v x).toNat * 5 ∧
      t.pc = s.pc + 2 ∧ Frame { index := true } s t)

/-- R174: the three decimal digits of Vx at I, I+1 and I+2, or DATA_OUT_OF_RANGE with no byte written
(whole range first: the spec's decision D17, log entry 16). The record and the halted state are D16 (log
entry 28), as a next state the model's choice (log entry 6), with the encoding as the word (log entry 7). -/
def Obligations.BcdStoresDigits : Prop :=
  ∀ (x : Reg) (s : State),
    (encode (.ldB x)).toNat = 0xF033 + 0x100 * x.val ∧
    (s.mem.wf → s.I.toNat + 2 ≤ 4095 →
      ∃ t, exec (.ldB x) s = .next t ∧
        (t.memRead s.I.toNat).toNat = (s.v x).toNat / 100 ∧
        (t.memRead (s.I.toNat + 1)).toNat = (s.v x).toNat / 10 % 10 ∧
        (t.memRead (s.I.toNat + 2)).toNat = (s.v x).toNat % 10 ∧
        t.pc = s.pc + 2 ∧ Frame { memBase := s.I.toNat, memCount := 3 } s t) ∧
    (4095 < s.I.toNat + 2 →
      ∃ t, exec (.ldB x) s = .next t ∧ TakesFault s t .dataOutOfRange (encode (.ldB x))
        (if 4095 < s.I.toNat then s.I.toNat else 4096))

/-- R175: V0..Vx at I..I+x and I past the range, or DATA_OUT_OF_RANGE with nothing written
(whole range first: the spec's decision D17, log entry 16). The record and the halted state are D16 (log
entry 28), as a next state the model's choice (log entry 6), with the encoding as the word (log entry 7). -/
def Obligations.RegisterBlockStores : Prop :=
  ∀ (x : Reg) (s : State),
    (encode (.ldMemVx x)).toNat = 0xF055 + 0x100 * x.val ∧
    (s.mem.wf → s.I.toNat + x.val ≤ 4095 →
      ∃ t, exec (.ldMemVx x) s = .next t ∧
        (∀ k : Reg, k ≤ x → t.memRead (s.I.toNat + k.val) = s.v k) ∧
        t.I.toNat = (s.I.toNat + x.val + 1) % 65536 ∧ t.pc = s.pc + 2 ∧
        Frame { index := true, memBase := s.I.toNat, memCount := x.val + 1 } s t) ∧
    (4095 < s.I.toNat + x.val →
      ∃ t, exec (.ldMemVx x) s = .next t ∧ TakesFault s t .dataOutOfRange (encode (.ldMemVx x))
        (if 4095 < s.I.toNat then s.I.toNat else 4096))

/-- R176: V0..Vx from I..I+x and I past the range, or DATA_OUT_OF_RANGE with no register
changed (whole range first: the spec's decision D17, log entry 16). The record and the halted state are
D16 (log entry 28), as a next state the model's choice (log entry 6), with the encoding as the
word (log entry 7). -/
def Obligations.RegisterBlockLoads : Prop :=
  ∀ (x : Reg) (s : State),
    (encode (.ldVxMem x)).toNat = 0xF065 + 0x100 * x.val ∧
    (s.I.toNat + x.val ≤ 4095 →
      ∃ t, exec (.ldVxMem x) s = .next t ∧
        (∀ k : Reg, k ≤ x → t.v k = s.memRead (s.I.toNat + k.val)) ∧
        t.I.toNat = (s.I.toNat + x.val + 1) % 65536 ∧ t.pc = s.pc + 2 ∧
        Frame { index := true, regs := (List.finRange 16).filter (fun k => k ≤ x) } s t) ∧
    (4095 < s.I.toNat + x.val →
      ∃ t, exec (.ldVxMem x) s = .next t ∧ TakesFault s t .dataOutOfRange (encode (.ldVxMem x))
        (if 4095 < s.I.toNat then s.I.toNat else 4096))

/-- R175, R176, C7: a block stored by Fx55 and loaded by Fx65 with I set back gives V0..Vx again,
whatever ran in between and kept the memory. -/
def Obligations.StoreLoadRoundTrip : Prop :=
  ∀ (x : Reg) (s t u : State), s.mem.wf → s.I.toNat + x.val ≤ 4095 →
    exec (.ldMemVx x) s = .next t → u.I = s.I → (∀ a, u.memRead a = t.memRead a) →
    ∃ w, exec (.ldVxMem x) u = .next w ∧ (∀ k : Reg, k ≤ x → w.v k = s.v k) ∧
      t.I.toNat = s.I.toNat + x.val + 1 ∧ w.I.toNat = s.I.toNat + x.val + 1

/-- R63 (the spec's decision D21, log entry 25): two bytes stored by Fx55 are the word that the next fetch
at their address reads. -/
def Obligations.StoredWordIsFetched : Prop :=
  ∀ (x k : Reg) (s t u : State), s.mem.wf → s.I.toNat + x.val ≤ 4095 → k < x →
    exec (.ldMemVx x) s = .next t → (∀ a, u.memRead a = t.memRead a) →
    u.pc.toNat = s.I.toNat + k.val →
    ∃ w : Word, u.fetch = .ok w ∧ w.toNat = 256 * (s.v k).toNat + (s.v (k + 1)).toNat

/-! ### Display (44_display.md) -/

/-- R190: every cell 0 and nothing else changed. -/
def Obligations.ClsClearsEveryCell : Prop :=
  encode .cls = 0x00E0 ∧
  ∀ s : State, ∃ t, exec .cls s = .next t ∧ (∀ c r, t.FB.get c r = false) ∧ t.pc = s.pc + 2 ∧
    Frame { display := true } s t

/-- R191, R192, R194: a draw inverts exactly the cells under a set sprite bit, wrapping at both edges, and
VF says whether one of them was on; n = 0 touches no memory; otherwise a row beyond 4095 faults.
Origin, height and n = 0 are the spec's decision D12 (log entry 15), the range check D17 (log entry 16).
The record and the halted state are D16 (log entry 28), as a next state the
model's choice (log entry 6), with the encoding as the word (log entry 7). -/
def Obligations.DrwDrawsAndDetects : Prop :=
  ∀ (x y : Reg) (n : Nibble) (s : State),
    (encode (.drw x y n)).toNat = 0xD000 + 0x100 * x.val + 0x10 * y.val + n.toNat ∧
    (n.toNat = 0 ∨ s.I.toNat + n.toNat - 1 ≤ 4095 →
      ∃ t, exec (.drw x y n) s = .next t ∧
        (∀ c r, t.FB.get c r ≠ s.FB.get c r ↔ inSprite s x y n c r) ∧
        ((∃ c r, inSprite s x y n c r ∧ s.FB.get c r = true) → t.v vf = 1) ∧
        ((¬ ∃ c r, inSprite s x y n c r ∧ s.FB.get c r = true) → t.v vf = 0) ∧
        t.pc = s.pc + 2 ∧ Frame { regs := [vf], display := true } s t) ∧
    (0 < n.toNat → 4095 < s.I.toNat + n.toNat - 1 →
      ∃ t, exec (.drw x y n) s = .next t ∧ TakesFault s t .dataOutOfRange (encode (.drw x y n))
        (if 4095 < s.I.toNat then s.I.toNat else 4096))

/-- R191, C6: the same sprite drawn twice at the same place restores the framebuffer, and the second draw
collides exactly when some cell under a set bit was off before the first. Origin, height and n = 0 are the
spec's decision D12 (log entry 15). -/
def Obligations.DrwTwiceRestores : Prop :=
  ∀ (x y : Reg) (n : Nibble) (s : State), x ≠ vf → y ≠ vf →
    (n.toNat = 0 ∨ s.I.toNat + n.toNat - 1 ≤ 4095) →
    ∃ t u, exec (.drw x y n) s = .next t ∧ exec (.drw x y n) t = .next u ∧ u.FB = s.FB ∧
      (u.v vf = 1 ↔ ∃ c r, inSprite s x y n c r ∧ s.FB.get c r = false)

/-! ### Key input and timers (45_timers_input.md) -/

/-- R211, R212: SKP skips exactly when this step's key is Vx, SKNP exactly when it is not. -/
def Obligations.KeySkips : Prop :=
  ∀ (x : Reg) (s : State),
    (encode (.skp x)).toNat = 0xE09E + 0x100 * x.val ∧
    (encode (.sknp x)).toNat = 0xE0A1 + 0x100 * x.val ∧
    ∃ t u, exec (.skp x) s = .next t ∧ exec (.sknp x) s = .next u ∧ Frame {} s t ∧ Frame {} s u ∧
      ((∃ k, s.input.key = some k ∧ k.val = (s.v x).toNat) → t.pc = s.pc + 4 ∧ u.pc = s.pc + 2) ∧
      ((∀ k, s.input.key = some k → k.val ≠ (s.v x).toNat) → t.pc = s.pc + 2 ∧ u.pc = s.pc + 4)

/-- R216: with a key the wait ends and Vx is the key; with none the machine comes back to the same
instruction with nothing else changed. A key alone ends it, with no release: the spec's decision D15 (log
entry 14). -/
def Obligations.KeyWaitRetries : Prop :=
  ∀ (x : Reg) (s : State),
    (encode (.ldVxK x)).toNat = 0xF00A + 0x100 * x.val ∧
    (∀ k, s.input.key = some k →
      ∃ t, exec (.ldVxK x) s = .next t ∧ (t.v x).toNat = k.val ∧ t.pc = s.pc + 2 ∧
        Frame { regs := [x] } s t) ∧
    (s.input.key = none →
      ∃ t, exec (.ldVxK x) s = .next t ∧ t.pc = s.pc ∧ Frame {} s t)

/-- R213, R214, R215: the timer reads and writes, before this step's tick. -/
def Obligations.TimerAccess : Prop :=
  ∀ (x : Reg) (s : State),
    (encode (.ldVxDt x)).toNat = 0xF007 + 0x100 * x.val ∧
    (encode (.ldDtVx x)).toNat = 0xF015 + 0x100 * x.val ∧
    (encode (.ldStVx x)).toNat = 0xF018 + 0x100 * x.val ∧
    (∃ t, exec (.ldVxDt x) s = .next t ∧ t.v x = s.DT ∧ t.pc = s.pc + 2 ∧
      Frame { regs := [x] } s t) ∧
    (∃ t, exec (.ldDtVx x) s = .next t ∧ t.DT = s.v x ∧ t.pc = s.pc + 2 ∧
      Frame { delay := true } s t) ∧
    (∃ t, exec (.ldStVx x) s = .next t ∧ t.ST = s.v x ∧ t.pc = s.pc + 2 ∧
      Frame { sound := true } s t)

/-! ### Rules over every step -/

/-- R26: only CALL and RET write sp, and only CALL writes a stack entry (R25). -/
def Obligations.OnlyCallAndRetWriteSp : Prop :=
  ∀ s t : State, step s = .next t →
    (t.sp ≠ s.sp → Runs s .ret ∨ ∃ nnn, Runs s (.call nnn)) ∧
    (t.stack ≠ s.stack → ∃ nnn, Runs s (.call nnn))

/-- R30: only CLS and DRW write FB. -/
def Obligations.OnlyClsAndDrwWriteDisplay : Prop :=
  ∀ s t : State, step s = .next t → t.FB ≠ s.FB → Runs s .cls ∨ ∃ x y n, Runs s (.drw x y n)

/-- R23: the writers of I. -/
def Obligations.OnlyIndexInstrsWriteIndex : Prop :=
  ∀ s t : State, step s = .next t → t.I ≠ s.I →
    (∃ nnn, Runs s (.ldI nnn)) ∨
    ∃ x, Runs s (.addI x) ∨ Runs s (.ldF x) ∨ Runs s (.ldMemVx x) ∨ Runs s (.ldVxMem x)

/-- R50, R57: only Fx33 and Fx55 write memory, and only the bytes of their own range. -/
def Obligations.OnlyStoresWriteMemory : Prop :=
  ∀ s t : State, step s = .next t → ∀ a, t.memRead a ≠ s.memRead a →
    (∃ x, Runs s (.ldB x) ∧ s.I.toNat ≤ a ∧ a ≤ s.I.toNat + 2) ∨
    (∃ x, Runs s (.ldMemVx x) ∧ s.I.toNat ≤ a ∧ a ≤ s.I.toNat + x.val)

/-- R21, R22: a register changes only under an instruction that names it as its destination, or, for VF,
under one of the six that write it as a flag. -/
def Obligations.OnlyNamedRegistersChange : Prop :=
  ∀ s t : State, step s = .next t → ∀ r, t.v r ≠ s.v r →
    ∃ i, Runs s i ∧ (namesDest i r ∨ (r = vf ∧ writesFlag i))

/-- R27, R28, R241: DT and ST change only under their own load or by one under a tick. That a tick lowers
them as numbers rests on a timer at 0 staying at 0, the spec's decision D13 (log entry 13). -/
def Obligations.OnlyLoadAndTickChangeTimers : Prop :=
  ∀ s t : State, step s = .next t →
    (t.DT ≠ s.DT → (∃ x, Runs s (.ldDtVx x)) ∨ (s.tick = true ∧ t.DT.toNat + 1 = s.DT.toNat)) ∧
    (t.ST ≠ s.ST → (∃ x, Runs s (.ldStVx x)) ∨ (s.tick = true ∧ t.ST.toNat + 1 = s.ST.toNat))

/-- R6, R148, R36: no step changes the machine's parameter (the model's own field, log entry 2). -/
def Obligations.StepKeepsParameter : Prop :=
  ∀ s t : State, step s = .next t → t.subnFlag = s.subnFlag

/-- R13, R210, R154: the key is read only by SKP, SKNP and LD Vx, K, the random byte only by RND, and the
tick by no instruction. -/
def Obligations.InputsReadOnlyWhereNamed : Prop :=
  ∀ (i : Instr) (s t : State) (p q : StepInput),
    (readsKey i → p.key = q.key) → (readsRnd i → p.rnd = q.rnd) →
    exec i (s.withInput p) = .next t → exec i (s.withInput q) = .next (t.withInput q)

/-! ### Invariants and memory -/

/-- Every step keeps the invariant: canonical memory (log entry 21), pc and stack entries within the reach
of R34, and the fault record NONE exactly while the machine runs (R31). -/
def Obligations.StepKeepsInv : Prop :=
  ∀ s t : State, Inv s → step s = .next t → Inv t

/-- The invariant holds right after reset. The stack entries are the zeros of the spec's decision D3 (log
entry 4), and the canonical form of memory is the model's own (log entry 21). -/
def Obligations.ResetInv : Prop :=
  Inv State.reset

/-- Canonical memories with the same bytes of R29 are the same data: the form is the model's own (log entry
21). -/
def Obligations.CanonicalMemoryIsUnique : Prop :=
  ∀ m m' : Memory, m.wf → m'.wf → (∀ a, a < 4096 → m.read a = m'.read a) → m = m'

/-! ### Reset, construction, end of run, ports -/

/-- R271, R274: the state after default construction. The zeros of V, I, DT, ST and the stack are the
spec's decision D3 (log entry 4), the font bytes its default table (log entry 3). -/
def Obligations.ResetState : Prop :=
  State.reset.pc.toNat = 0x200 ∧ State.reset.sp.val = 0 ∧ State.reset.halted = false ∧
  State.reset.fault = ⟨.noFault, 0, 0, 0⟩ ∧ State.reset.audioOn = false ∧
  (∀ c r, State.reset.FB.get c r = false) ∧
  (∀ a, State.reset.memRead a = if h : a < 80 then defaultFont[a] else 0) ∧
  (∀ r, State.reset.v r = 0) ∧ State.reset.I = 0 ∧ State.reset.DT = 0 ∧ State.reset.ST = 0 ∧
  (∀ k : Fin 16, State.reset.stack[k] = 0)

/-- R272, D4 (log entry 20): the image from address 0, zero after it, the font last, for every FONT and
SUBN_FLAG; every other piece of state as after reset. -/
def Obligations.ImageConstructorLoads : Prop :=
  ∀ (font : Font) (mode : SubnFlag) (img : List Byte), img.length ≤ 4096 →
    ∃ s, construct font mode img = .ok s ∧ s.mem.wf ∧ s.subnFlag = mode ∧
      (∀ a, a < 4096 → s.memRead a =
        if h : a < 80 then font[a] else if h : a < img.length then img[a] else 0) ∧
      s = { State.reset with mem := s.mem, subnFlag := s.subnFlag }

/-- R273: an image longer than 4096 bytes is rejected at construction, and no other is. -/
def Obligations.OversizedImageRejected : Prop :=
  ∀ (font : Font) (mode : SubnFlag) (img : List Byte),
    construct font mode img = .error .invalidMemorySize ↔ 4096 < img.length

/-- R277 (b) (the spec's decision D23, log entry 29): every step from a parked state is taken, stays
parked and changes only DT and ST (and uses up its input: the model's own fields, log entry 1). -/
def Obligations.ParkedStaysParked : Prop :=
  ∀ s : State, s.parked = true →
    ∃ t, step s = .next t ∧ t.parked = true ∧
      t = { s with DT := t.DT, ST := t.ST, inputs := t.inputs, drawn := t.drawn }

/-- R241, R277, R282: over any given inputs a parked machine's timers fall by one per ticking step, down
to 0, and no step faults. That a timer stays at 0 is the spec's decision D13 (log entry 13), what parked
means its decision D23 (log entry 29); the list of given inputs is the model's own field (log entry 1). -/
def Obligations.ParkedTimersRunDown : Prop :=
  ∀ (script : List StepInput) (s : State), s.parked = true → s.inputs = script →
    ∃ t, core.run script.length s = .next t ∧ State.parked t = true ∧
      (State.DT t).toNat = s.DT.toNat - (script.filter (fun i => i.tick)).length ∧
      (State.ST t).toNat = s.ST.toNat - (script.filter (fun i => i.tick)).length

/-- R252: the audio output is on exactly while ST is not 0, and a tone starts or stops exactly when the
output changes between two states; the output is off after construction. Read at the end of each step: the
spec's decision D24 (log entry 30). -/
def Obligations.AudioFollowsSoundTimer : Prop :=
  State.reset.audioOn = false ∧ ∀ s t : State,
    (s.audioOn = true ↔ s.ST.toNat ≠ 0) ∧
    (toneEvent s t = some .startTone ↔ s.audioOn = false ∧ t.audioOn = true) ∧
    (toneEvent s t = some .stopTone ↔ s.audioOn = true ∧ t.audioOn = false) ∧
    (toneEvent s t = none ↔ s.audioOn = t.audioOn)

/-- R254, R256: the snapshot's cell at index col + row·64, and the inspection port's copy of pc, I, sp, V
and memory. -/
def Obligations.PortsShowTheState : Prop :=
  ∀ s : State,
    s.fbRead.length = 2048 ∧
    (∀ (c : Fin 64) (r : Fin 32), s.fbRead[c.val + r.val * 64]? = some (s.FB.get c r)) ∧
    s.inspect.pc = s.pc ∧ s.inspect.I = s.I ∧ s.inspect.sp = s.sp ∧
    (∀ r : Reg, s.inspect.V[r.val]? = some (s.v r)) ∧
    s.inspect.memory.length = 4096 ∧
    (∀ a, a < 4096 → s.inspect.memory[a]? = some (s.memRead a))
end

