-- ==== Sys2Proof/Laws/State.lean ====
section
/-! SUPPORT. One lemma per field per update of the state, so that no later proof unfolds a record update,
and the reads of registers after writes. -/

namespace Sys2Proof.Machine

/-! ### setV -/

@[simp] theorem State.setV_I (s : State) (r : Reg) (b : Byte) : (s.setV r b).I = s.I := rfl

@[simp] theorem State.setV_pc (s : State) (r : Reg) (b : Byte) : (s.setV r b).pc = s.pc := rfl

@[simp] theorem State.setV_stack (s : State) (r : Reg) (b : Byte) : (s.setV r b).stack = s.stack := rfl

@[simp] theorem State.setV_sp (s : State) (r : Reg) (b : Byte) : (s.setV r b).sp = s.sp := rfl

@[simp] theorem State.setV_DT (s : State) (r : Reg) (b : Byte) : (s.setV r b).DT = s.DT := rfl

@[simp] theorem State.setV_ST (s : State) (r : Reg) (b : Byte) : (s.setV r b).ST = s.ST := rfl

@[simp] theorem State.setV_mem (s : State) (r : Reg) (b : Byte) : (s.setV r b).mem = s.mem := rfl

@[simp] theorem State.setV_FB (s : State) (r : Reg) (b : Byte) : (s.setV r b).FB = s.FB := rfl

@[simp] theorem State.setV_halted (s : State) (r : Reg) (b : Byte) : (s.setV r b).halted = s.halted := rfl

@[simp] theorem State.setV_fault (s : State) (r : Reg) (b : Byte) : (s.setV r b).fault = s.fault := rfl

@[simp] theorem State.setV_subnFlag (s : State) (r : Reg) (b : Byte) : (s.setV r b).subnFlag = s.subnFlag := rfl

@[simp] theorem State.setV_inputs (s : State) (r : Reg) (b : Byte) : (s.setV r b).inputs = s.inputs := rfl

@[simp] theorem State.setV_drawn (s : State) (r : Reg) (b : Byte) : (s.setV r b).drawn = s.drawn := rfl

/-! ### advance -/

@[simp] theorem State.advance_pc (s : State) : (s.advance).pc = s.pc + 2 := rfl

@[simp] theorem State.advance_V (s : State) : (s.advance).V = s.V := rfl

@[simp] theorem State.advance_I (s : State) : (s.advance).I = s.I := rfl

@[simp] theorem State.advance_stack (s : State) : (s.advance).stack = s.stack := rfl

@[simp] theorem State.advance_sp (s : State) : (s.advance).sp = s.sp := rfl

@[simp] theorem State.advance_DT (s : State) : (s.advance).DT = s.DT := rfl

@[simp] theorem State.advance_ST (s : State) : (s.advance).ST = s.ST := rfl

@[simp] theorem State.advance_mem (s : State) : (s.advance).mem = s.mem := rfl

@[simp] theorem State.advance_FB (s : State) : (s.advance).FB = s.FB := rfl

@[simp] theorem State.advance_halted (s : State) : (s.advance).halted = s.halted := rfl

@[simp] theorem State.advance_fault (s : State) : (s.advance).fault = s.fault := rfl

@[simp] theorem State.advance_subnFlag (s : State) : (s.advance).subnFlag = s.subnFlag := rfl

@[simp] theorem State.advance_inputs (s : State) : (s.advance).inputs = s.inputs := rfl

@[simp] theorem State.advance_drawn (s : State) : (s.advance).drawn = s.drawn := rfl

/-! ### jump -/

@[simp] theorem State.jump_pc (s : State) (p : Word) : (s.jump p).pc = p := rfl

@[simp] theorem State.jump_V (s : State) (p : Word) : (s.jump p).V = s.V := rfl

@[simp] theorem State.jump_I (s : State) (p : Word) : (s.jump p).I = s.I := rfl

@[simp] theorem State.jump_stack (s : State) (p : Word) : (s.jump p).stack = s.stack := rfl

@[simp] theorem State.jump_sp (s : State) (p : Word) : (s.jump p).sp = s.sp := rfl

@[simp] theorem State.jump_DT (s : State) (p : Word) : (s.jump p).DT = s.DT := rfl

@[simp] theorem State.jump_ST (s : State) (p : Word) : (s.jump p).ST = s.ST := rfl

@[simp] theorem State.jump_mem (s : State) (p : Word) : (s.jump p).mem = s.mem := rfl

@[simp] theorem State.jump_FB (s : State) (p : Word) : (s.jump p).FB = s.FB := rfl

@[simp] theorem State.jump_halted (s : State) (p : Word) : (s.jump p).halted = s.halted := rfl

@[simp] theorem State.jump_fault (s : State) (p : Word) : (s.jump p).fault = s.fault := rfl

@[simp] theorem State.jump_subnFlag (s : State) (p : Word) : (s.jump p).subnFlag = s.subnFlag := rfl

@[simp] theorem State.jump_inputs (s : State) (p : Word) : (s.jump p).inputs = s.inputs := rfl

@[simp] theorem State.jump_drawn (s : State) (p : Word) : (s.jump p).drawn = s.drawn := rfl

/-! ### setI -/

@[simp] theorem State.setI_I (s : State) (w : Word) : (s.setI w).I = w := rfl

@[simp] theorem State.setI_V (s : State) (w : Word) : (s.setI w).V = s.V := rfl

@[simp] theorem State.setI_pc (s : State) (w : Word) : (s.setI w).pc = s.pc := rfl

@[simp] theorem State.setI_stack (s : State) (w : Word) : (s.setI w).stack = s.stack := rfl

@[simp] theorem State.setI_sp (s : State) (w : Word) : (s.setI w).sp = s.sp := rfl

@[simp] theorem State.setI_DT (s : State) (w : Word) : (s.setI w).DT = s.DT := rfl

@[simp] theorem State.setI_ST (s : State) (w : Word) : (s.setI w).ST = s.ST := rfl

@[simp] theorem State.setI_mem (s : State) (w : Word) : (s.setI w).mem = s.mem := rfl

@[simp] theorem State.setI_FB (s : State) (w : Word) : (s.setI w).FB = s.FB := rfl

@[simp] theorem State.setI_halted (s : State) (w : Word) : (s.setI w).halted = s.halted := rfl

@[simp] theorem State.setI_fault (s : State) (w : Word) : (s.setI w).fault = s.fault := rfl

@[simp] theorem State.setI_subnFlag (s : State) (w : Word) : (s.setI w).subnFlag = s.subnFlag := rfl

@[simp] theorem State.setI_inputs (s : State) (w : Word) : (s.setI w).inputs = s.inputs := rfl

@[simp] theorem State.setI_drawn (s : State) (w : Word) : (s.setI w).drawn = s.drawn := rfl

/-! ### memWrite -/

@[simp] theorem State.memWrite_mem (s : State) (a : Nat) (b : Byte) : (s.memWrite a b).mem = s.mem.write a b := rfl

@[simp] theorem State.memWrite_V (s : State) (a : Nat) (b : Byte) : (s.memWrite a b).V = s.V := rfl

@[simp] theorem State.memWrite_I (s : State) (a : Nat) (b : Byte) : (s.memWrite a b).I = s.I := rfl

@[simp] theorem State.memWrite_pc (s : State) (a : Nat) (b : Byte) : (s.memWrite a b).pc = s.pc := rfl

@[simp] theorem State.memWrite_stack (s : State) (a : Nat) (b : Byte) : (s.memWrite a b).stack = s.stack := rfl

@[simp] theorem State.memWrite_sp (s : State) (a : Nat) (b : Byte) : (s.memWrite a b).sp = s.sp := rfl

@[simp] theorem State.memWrite_DT (s : State) (a : Nat) (b : Byte) : (s.memWrite a b).DT = s.DT := rfl

@[simp] theorem State.memWrite_ST (s : State) (a : Nat) (b : Byte) : (s.memWrite a b).ST = s.ST := rfl

@[simp] theorem State.memWrite_FB (s : State) (a : Nat) (b : Byte) : (s.memWrite a b).FB = s.FB := rfl

@[simp] theorem State.memWrite_halted (s : State) (a : Nat) (b : Byte) : (s.memWrite a b).halted = s.halted := rfl

@[simp] theorem State.memWrite_fault (s : State) (a : Nat) (b : Byte) : (s.memWrite a b).fault = s.fault := rfl

@[simp] theorem State.memWrite_subnFlag (s : State) (a : Nat) (b : Byte) : (s.memWrite a b).subnFlag = s.subnFlag := rfl

@[simp] theorem State.memWrite_inputs (s : State) (a : Nat) (b : Byte) : (s.memWrite a b).inputs = s.inputs := rfl

@[simp] theorem State.memWrite_drawn (s : State) (a : Nat) (b : Byte) : (s.memWrite a b).drawn = s.drawn := rfl

/-! ### raise -/

@[simp] theorem State.raise_halted (s : State) (c : FaultCause) (w : Word) (a : Nat) : (s.raise c w a).halted = true := rfl

@[simp] theorem State.raise_fault (s : State) (c : FaultCause) (w : Word) (a : Nat) : (s.raise c w a).fault = ⟨c, w, s.pc, a⟩ := rfl

@[simp] theorem State.raise_V (s : State) (c : FaultCause) (w : Word) (a : Nat) : (s.raise c w a).V = s.V := rfl

@[simp] theorem State.raise_I (s : State) (c : FaultCause) (w : Word) (a : Nat) : (s.raise c w a).I = s.I := rfl

@[simp] theorem State.raise_pc (s : State) (c : FaultCause) (w : Word) (a : Nat) : (s.raise c w a).pc = s.pc := rfl

@[simp] theorem State.raise_stack (s : State) (c : FaultCause) (w : Word) (a : Nat) : (s.raise c w a).stack = s.stack := rfl

@[simp] theorem State.raise_sp (s : State) (c : FaultCause) (w : Word) (a : Nat) : (s.raise c w a).sp = s.sp := rfl

@[simp] theorem State.raise_DT (s : State) (c : FaultCause) (w : Word) (a : Nat) : (s.raise c w a).DT = s.DT := rfl

@[simp] theorem State.raise_ST (s : State) (c : FaultCause) (w : Word) (a : Nat) : (s.raise c w a).ST = s.ST := rfl

@[simp] theorem State.raise_mem (s : State) (c : FaultCause) (w : Word) (a : Nat) : (s.raise c w a).mem = s.mem := rfl

@[simp] theorem State.raise_FB (s : State) (c : FaultCause) (w : Word) (a : Nat) : (s.raise c w a).FB = s.FB := rfl

@[simp] theorem State.raise_subnFlag (s : State) (c : FaultCause) (w : Word) (a : Nat) : (s.raise c w a).subnFlag = s.subnFlag := rfl

@[simp] theorem State.raise_inputs (s : State) (c : FaultCause) (w : Word) (a : Nat) : (s.raise c w a).inputs = s.inputs := rfl

@[simp] theorem State.raise_drawn (s : State) (c : FaultCause) (w : Word) (a : Nat) : (s.raise c w a).drawn = s.drawn := rfl

/-! ### tickTimers -/

@[simp] theorem State.tickTimers_DT (s : State) : (s.tickTimers).DT = countdown s.tick s.DT := rfl

@[simp] theorem State.tickTimers_ST (s : State) : (s.tickTimers).ST = countdown s.tick s.ST := rfl

@[simp] theorem State.tickTimers_V (s : State) : (s.tickTimers).V = s.V := rfl

@[simp] theorem State.tickTimers_I (s : State) : (s.tickTimers).I = s.I := rfl

@[simp] theorem State.tickTimers_pc (s : State) : (s.tickTimers).pc = s.pc := rfl

@[simp] theorem State.tickTimers_stack (s : State) : (s.tickTimers).stack = s.stack := rfl

@[simp] theorem State.tickTimers_sp (s : State) : (s.tickTimers).sp = s.sp := rfl

@[simp] theorem State.tickTimers_mem (s : State) : (s.tickTimers).mem = s.mem := rfl

@[simp] theorem State.tickTimers_FB (s : State) : (s.tickTimers).FB = s.FB := rfl

@[simp] theorem State.tickTimers_halted (s : State) : (s.tickTimers).halted = s.halted := rfl

@[simp] theorem State.tickTimers_fault (s : State) : (s.tickTimers).fault = s.fault := rfl

@[simp] theorem State.tickTimers_subnFlag (s : State) : (s.tickTimers).subnFlag = s.subnFlag := rfl

@[simp] theorem State.tickTimers_inputs (s : State) : (s.tickTimers).inputs = s.inputs := rfl

@[simp] theorem State.tickTimers_drawn (s : State) : (s.tickTimers).drawn = s.drawn := rfl

/-! ### skipIf -/

theorem State.skipIf_pc (s : State) (c : Bool) :
    (s.skipIf c).pc = if c then s.pc + 2 else s.pc := by
  cases c <;> rfl

@[simp] theorem State.skipIf_V (s : State) (c : Bool) : (s.skipIf c).V = s.V := by cases c <;> rfl

@[simp] theorem State.skipIf_I (s : State) (c : Bool) : (s.skipIf c).I = s.I := by cases c <;> rfl

@[simp] theorem State.skipIf_stack (s : State) (c : Bool) : (s.skipIf c).stack = s.stack := by cases c <;> rfl

@[simp] theorem State.skipIf_sp (s : State) (c : Bool) : (s.skipIf c).sp = s.sp := by cases c <;> rfl

@[simp] theorem State.skipIf_DT (s : State) (c : Bool) : (s.skipIf c).DT = s.DT := by cases c <;> rfl

@[simp] theorem State.skipIf_ST (s : State) (c : Bool) : (s.skipIf c).ST = s.ST := by cases c <;> rfl

@[simp] theorem State.skipIf_mem (s : State) (c : Bool) : (s.skipIf c).mem = s.mem := by cases c <;> rfl

@[simp] theorem State.skipIf_FB (s : State) (c : Bool) : (s.skipIf c).FB = s.FB := by cases c <;> rfl

@[simp] theorem State.skipIf_halted (s : State) (c : Bool) : (s.skipIf c).halted = s.halted := by cases c <;> rfl

@[simp] theorem State.skipIf_fault (s : State) (c : Bool) : (s.skipIf c).fault = s.fault := by cases c <;> rfl

@[simp] theorem State.skipIf_subnFlag (s : State) (c : Bool) : (s.skipIf c).subnFlag = s.subnFlag := by cases c <;> rfl

@[simp] theorem State.skipIf_inputs (s : State) (c : Bool) : (s.skipIf c).inputs = s.inputs := by cases c <;> rfl

@[simp] theorem State.skipIf_drawn (s : State) (c : Bool) : (s.skipIf c).drawn = s.drawn := by cases c <;> rfl

/-! ### nextInput -/

@[simp] theorem State.nextInput_V (s : State) : s.nextInput.V = s.V := by
  unfold State.nextInput; split <;> rfl

@[simp] theorem State.nextInput_I (s : State) : s.nextInput.I = s.I := by
  unfold State.nextInput; split <;> rfl

@[simp] theorem State.nextInput_pc (s : State) : s.nextInput.pc = s.pc := by
  unfold State.nextInput; split <;> rfl

@[simp] theorem State.nextInput_stack (s : State) : s.nextInput.stack = s.stack := by
  unfold State.nextInput; split <;> rfl

@[simp] theorem State.nextInput_sp (s : State) : s.nextInput.sp = s.sp := by
  unfold State.nextInput; split <;> rfl

@[simp] theorem State.nextInput_DT (s : State) : s.nextInput.DT = s.DT := by
  unfold State.nextInput; split <;> rfl

@[simp] theorem State.nextInput_ST (s : State) : s.nextInput.ST = s.ST := by
  unfold State.nextInput; split <;> rfl

@[simp] theorem State.nextInput_mem (s : State) : s.nextInput.mem = s.mem := by
  unfold State.nextInput; split <;> rfl

@[simp] theorem State.nextInput_FB (s : State) : s.nextInput.FB = s.FB := by
  unfold State.nextInput; split <;> rfl

@[simp] theorem State.nextInput_halted (s : State) : s.nextInput.halted = s.halted := by
  unfold State.nextInput; split <;> rfl

@[simp] theorem State.nextInput_fault (s : State) : s.nextInput.fault = s.fault := by
  unfold State.nextInput; split <;> rfl

@[simp] theorem State.nextInput_subnFlag (s : State) : s.nextInput.subnFlag = s.subnFlag := by
  unfold State.nextInput; split <;> rfl

/-! ### takeKey -/

@[simp] theorem State.takeKey_I (s : State) (x : Reg) (k : Option Key) : (s.takeKey x k).I = s.I := by
  cases k <;> rfl

@[simp] theorem State.takeKey_stack (s : State) (x : Reg) (k : Option Key) : (s.takeKey x k).stack = s.stack := by
  cases k <;> rfl

@[simp] theorem State.takeKey_sp (s : State) (x : Reg) (k : Option Key) : (s.takeKey x k).sp = s.sp := by
  cases k <;> rfl

@[simp] theorem State.takeKey_DT (s : State) (x : Reg) (k : Option Key) : (s.takeKey x k).DT = s.DT := by
  cases k <;> rfl

@[simp] theorem State.takeKey_ST (s : State) (x : Reg) (k : Option Key) : (s.takeKey x k).ST = s.ST := by
  cases k <;> rfl

@[simp] theorem State.takeKey_mem (s : State) (x : Reg) (k : Option Key) : (s.takeKey x k).mem = s.mem := by
  cases k <;> rfl

@[simp] theorem State.takeKey_FB (s : State) (x : Reg) (k : Option Key) : (s.takeKey x k).FB = s.FB := by
  cases k <;> rfl

@[simp] theorem State.takeKey_halted (s : State) (x : Reg) (k : Option Key) : (s.takeKey x k).halted = s.halted := by
  cases k <;> rfl

@[simp] theorem State.takeKey_fault (s : State) (x : Reg) (k : Option Key) : (s.takeKey x k).fault = s.fault := by
  cases k <;> rfl

@[simp] theorem State.takeKey_subnFlag (s : State) (x : Reg) (k : Option Key) : (s.takeKey x k).subnFlag = s.subnFlag := by
  cases k <;> rfl

@[simp] theorem State.takeKey_inputs (s : State) (x : Reg) (k : Option Key) : (s.takeKey x k).inputs = s.inputs := by
  cases k <;> rfl

@[simp] theorem State.takeKey_drawn (s : State) (x : Reg) (k : Option Key) : (s.takeKey x k).drawn = s.drawn := by
  cases k <;> rfl

/-! ### storeBytes -/

@[simp] theorem State.storeBytes_V (s : State) (a : Nat) (bs : List Byte) : (s.storeBytes a bs).V = s.V := by
  induction bs generalizing s a with
  | nil => rfl
  | cons b bs ih => simp [State.storeBytes, ih]

@[simp] theorem State.storeBytes_I (s : State) (a : Nat) (bs : List Byte) : (s.storeBytes a bs).I = s.I := by
  induction bs generalizing s a with
  | nil => rfl
  | cons b bs ih => simp [State.storeBytes, ih]

@[simp] theorem State.storeBytes_pc (s : State) (a : Nat) (bs : List Byte) : (s.storeBytes a bs).pc = s.pc := by
  induction bs generalizing s a with
  | nil => rfl
  | cons b bs ih => simp [State.storeBytes, ih]

@[simp] theorem State.storeBytes_stack (s : State) (a : Nat) (bs : List Byte) : (s.storeBytes a bs).stack = s.stack := by
  induction bs generalizing s a with
  | nil => rfl
  | cons b bs ih => simp [State.storeBytes, ih]

@[simp] theorem State.storeBytes_sp (s : State) (a : Nat) (bs : List Byte) : (s.storeBytes a bs).sp = s.sp := by
  induction bs generalizing s a with
  | nil => rfl
  | cons b bs ih => simp [State.storeBytes, ih]

@[simp] theorem State.storeBytes_DT (s : State) (a : Nat) (bs : List Byte) : (s.storeBytes a bs).DT = s.DT := by
  induction bs generalizing s a with
  | nil => rfl
  | cons b bs ih => simp [State.storeBytes, ih]

@[simp] theorem State.storeBytes_ST (s : State) (a : Nat) (bs : List Byte) : (s.storeBytes a bs).ST = s.ST := by
  induction bs generalizing s a with
  | nil => rfl
  | cons b bs ih => simp [State.storeBytes, ih]

@[simp] theorem State.storeBytes_FB (s : State) (a : Nat) (bs : List Byte) : (s.storeBytes a bs).FB = s.FB := by
  induction bs generalizing s a with
  | nil => rfl
  | cons b bs ih => simp [State.storeBytes, ih]

@[simp] theorem State.storeBytes_halted (s : State) (a : Nat) (bs : List Byte) : (s.storeBytes a bs).halted = s.halted := by
  induction bs generalizing s a with
  | nil => rfl
  | cons b bs ih => simp [State.storeBytes, ih]

@[simp] theorem State.storeBytes_fault (s : State) (a : Nat) (bs : List Byte) : (s.storeBytes a bs).fault = s.fault := by
  induction bs generalizing s a with
  | nil => rfl
  | cons b bs ih => simp [State.storeBytes, ih]

@[simp] theorem State.storeBytes_subnFlag (s : State) (a : Nat) (bs : List Byte) : (s.storeBytes a bs).subnFlag = s.subnFlag := by
  induction bs generalizing s a with
  | nil => rfl
  | cons b bs ih => simp [State.storeBytes, ih]

@[simp] theorem State.storeBytes_inputs (s : State) (a : Nat) (bs : List Byte) : (s.storeBytes a bs).inputs = s.inputs := by
  induction bs generalizing s a with
  | nil => rfl
  | cons b bs ih => simp [State.storeBytes, ih]

@[simp] theorem State.storeBytes_drawn (s : State) (a : Nat) (bs : List Byte) : (s.storeBytes a bs).drawn = s.drawn := by
  induction bs generalizing s a with
  | nil => rfl
  | cons b bs ih => simp [State.storeBytes, ih]

/-! ### setBlock -/

@[simp] theorem State.setBlock_I (s : State) (k : Nat) (bs : List Byte) : (s.setBlock k bs).I = s.I := by
  induction bs generalizing s k with
  | nil => rfl
  | cons b bs ih => unfold State.setBlock; split <;> simp [ih]

@[simp] theorem State.setBlock_pc (s : State) (k : Nat) (bs : List Byte) : (s.setBlock k bs).pc = s.pc := by
  induction bs generalizing s k with
  | nil => rfl
  | cons b bs ih => unfold State.setBlock; split <;> simp [ih]

@[simp] theorem State.setBlock_stack (s : State) (k : Nat) (bs : List Byte) : (s.setBlock k bs).stack = s.stack := by
  induction bs generalizing s k with
  | nil => rfl
  | cons b bs ih => unfold State.setBlock; split <;> simp [ih]

@[simp] theorem State.setBlock_sp (s : State) (k : Nat) (bs : List Byte) : (s.setBlock k bs).sp = s.sp := by
  induction bs generalizing s k with
  | nil => rfl
  | cons b bs ih => unfold State.setBlock; split <;> simp [ih]

@[simp] theorem State.setBlock_DT (s : State) (k : Nat) (bs : List Byte) : (s.setBlock k bs).DT = s.DT := by
  induction bs generalizing s k with
  | nil => rfl
  | cons b bs ih => unfold State.setBlock; split <;> simp [ih]

@[simp] theorem State.setBlock_ST (s : State) (k : Nat) (bs : List Byte) : (s.setBlock k bs).ST = s.ST := by
  induction bs generalizing s k with
  | nil => rfl
  | cons b bs ih => unfold State.setBlock; split <;> simp [ih]

@[simp] theorem State.setBlock_mem (s : State) (k : Nat) (bs : List Byte) : (s.setBlock k bs).mem = s.mem := by
  induction bs generalizing s k with
  | nil => rfl
  | cons b bs ih => unfold State.setBlock; split <;> simp [ih]

@[simp] theorem State.setBlock_FB (s : State) (k : Nat) (bs : List Byte) : (s.setBlock k bs).FB = s.FB := by
  induction bs generalizing s k with
  | nil => rfl
  | cons b bs ih => unfold State.setBlock; split <;> simp [ih]

@[simp] theorem State.setBlock_halted (s : State) (k : Nat) (bs : List Byte) : (s.setBlock k bs).halted = s.halted := by
  induction bs generalizing s k with
  | nil => rfl
  | cons b bs ih => unfold State.setBlock; split <;> simp [ih]

@[simp] theorem State.setBlock_fault (s : State) (k : Nat) (bs : List Byte) : (s.setBlock k bs).fault = s.fault := by
  induction bs generalizing s k with
  | nil => rfl
  | cons b bs ih => unfold State.setBlock; split <;> simp [ih]

@[simp] theorem State.setBlock_subnFlag (s : State) (k : Nat) (bs : List Byte) : (s.setBlock k bs).subnFlag = s.subnFlag := by
  induction bs generalizing s k with
  | nil => rfl
  | cons b bs ih => unfold State.setBlock; split <;> simp [ih]

@[simp] theorem State.setBlock_inputs (s : State) (k : Nat) (bs : List Byte) : (s.setBlock k bs).inputs = s.inputs := by
  induction bs generalizing s k with
  | nil => rfl
  | cons b bs ih => unfold State.setBlock; split <;> simp [ih]

@[simp] theorem State.setBlock_drawn (s : State) (k : Nat) (bs : List Byte) : (s.setBlock k bs).drawn = s.drawn := by
  induction bs generalizing s k with
  | nil => rfl
  | cons b bs ih => unfold State.setBlock; split <;> simp [ih]

/-! ### Reads after writes -/

/-- A register read after a register write. -/
theorem State.v_setV (s : State) (r q : Reg) (b : Byte) :
    (s.setV r b).v q = if q = r then b else s.v q := by
  simp only [State.v, State.setV, Vector.getElem_set]
  simp only [Fin.ext_iff, eq_comm]

@[simp] theorem State.v_setV_same (s : State) (r : Reg) (b : Byte) : (s.setV r b).v r = b := by
  simp [State.v_setV]

theorem State.v_setV_other {s : State} {r q : Reg} {b : Byte} (h : q ≠ r) :
    (s.setV r b).v q = s.v q := by
  simp [State.v_setV, h]

/-- A register is read from `V` alone. -/
theorem State.v_congr {s t : State} (h : t.V = s.V) (r : Reg) : t.v r = s.v r := by
  simp [State.v, h]

@[simp] theorem State.v_advance (s : State) (r : Reg) : s.advance.v r = s.v r := rfl

@[simp] theorem State.v_jump (s : State) (p : Word) (r : Reg) : (s.jump p).v r = s.v r := rfl

@[simp] theorem State.v_setI (s : State) (w : Word) (r : Reg) : (s.setI w).v r = s.v r := rfl

@[simp] theorem State.v_skipIf (s : State) (c : Bool) (r : Reg) : (s.skipIf c).v r = s.v r :=
  State.v_congr (s.skipIf_V c) r

@[simp] theorem State.v_storeBytes (s : State) (a : Nat) (bs : List Byte) (r : Reg) :
    (s.storeBytes a bs).v r = s.v r :=
  State.v_congr (s.storeBytes_V a bs) r

/-- A byte is read from `mem` alone. -/
theorem State.memRead_congr {s t : State} (h : t.mem = s.mem) (a : Nat) :
    t.memRead a = s.memRead a := by
  simp [State.memRead, h]

@[simp] theorem State.memRead_advance (s : State) (a : Nat) : s.advance.memRead a = s.memRead a := rfl

@[simp] theorem State.memRead_jump (s : State) (p : Word) (a : Nat) :
    (s.jump p).memRead a = s.memRead a := rfl

@[simp] theorem State.memRead_setI (s : State) (w : Word) (a : Nat) :
    (s.setI w).memRead a = s.memRead a := rfl

@[simp] theorem State.memRead_setV (s : State) (r : Reg) (b : Byte) (a : Nat) :
    (s.setV r b).memRead a = s.memRead a := rfl

@[simp] theorem State.memRead_skipIf (s : State) (c : Bool) (a : Nat) :
    (s.skipIf c).memRead a = s.memRead a :=
  State.memRead_congr (s.skipIf_mem c) a

@[simp] theorem State.memRead_setBlock (s : State) (k : Nat) (bs : List Byte) (a : Nat) :
    (s.setBlock k bs).memRead a = s.memRead a :=
  State.memRead_congr (s.setBlock_mem k bs) a

/-- The registers after a block write: V[k] to V[k + length - 1] hold the bytes, the rest is kept. -/
theorem State.v_setBlock (s : State) (k : Nat) (bs : List Byte) (r : Reg) :
    (s.setBlock k bs).v r =
      if h : k ≤ r.val ∧ r.val < k + bs.length then bs[r.val - k]'(by omega) else s.v r := by
  induction bs generalizing s k with
  | nil =>
    have h : ¬ (k ≤ r.val ∧ r.val < k + ([] : List Byte).length) := by
      simp only [List.length_nil]; omega
    simp only [State.setBlock, dif_neg h]
  | cons b bs ih =>
    unfold State.setBlock
    have hr := r.isLt
    by_cases hk : k < 16
    · rw [dif_pos hk, ih, State.v_setV]
      simp only [List.length_cons, Fin.ext_iff]
      by_cases h1 : r.val = k
      · have : ¬ (k + 1 ≤ r.val ∧ r.val < k + 1 + bs.length) := by omega
        have h2 : k ≤ r.val ∧ r.val < k + (bs.length + 1) := by omega
        simp only [h1, if_true]
        simp
      · by_cases h2 : k + 1 ≤ r.val ∧ r.val < k + 1 + bs.length
        · have h3 : k ≤ r.val ∧ r.val < k + (bs.length + 1) := by omega
          have h4 : r.val - k = (r.val - (k + 1)) + 1 := by omega
          rw [dif_pos h2, dif_pos h3]
          simp only [h4, List.getElem_cons_succ]
        · have h3 : ¬ (k ≤ r.val ∧ r.val < k + (bs.length + 1)) := by omega
          rw [dif_neg h2, dif_neg h3, if_neg h1]
    · have h3 : ¬ (k ≤ r.val ∧ r.val < k + (b :: bs).length) := by
        simp only [List.length_cons]; omega
      rw [dif_neg hk, dif_neg h3]

end Sys2Proof.Machine
end

