-- ==== Sys2Proof/Laws/Memory.lean ====
section
/-! SUPPORT. What each memory operation does: reads after writes, and that every operation keeps the
canonical form. -/

namespace Sys2Proof.Machine

/-! ### Reads after the list operations -/

theorem Memory.read_put (m : Memory) (a b : Nat) (v : Byte) :
    (m.put a v).read b = if b = a then v else m.read b := by
  induction m with
  | nil => rfl
  | cons c m ih =>
    obtain ⟨c, u⟩ := c
    simp only [Memory.put]
    split
    · rfl
    · split
      · rename_i h; subst h; simp only [Memory.read]; split <;> simp_all
      · simp only [Memory.read, ih]
        split <;> split <;> simp_all

theorem Memory.read_below (m : Memory) (a : Nat) (h : ∀ c ∈ m, a < c.1) : m.read a = background a := by
  induction m with
  | nil => rfl
  | cons c m ih =>
    have h1 := h c (by simp)
    have : a ≠ c.1 := by omega
    simp only [Memory.read, if_neg this]
    exact ih (fun d hd => h d (by simp [hd]))

theorem Memory.read_clear (m : Memory) (a b : Nat) (hs : m.Pairwise (fun c d => c.1 < d.1)) :
    (m.clear a).read b = if b = a then background a else m.read b := by
  induction m with
  | nil => simp only [Memory.clear, Memory.read]; split <;> simp_all
  | cons c m ih =>
    obtain ⟨c, u⟩ := c
    rw [List.pairwise_cons] at hs
    simp only [Memory.clear]
    split
    · rename_i h
      split
      · subst b
        exact Memory.read_below _ _ (by
          intro d hd
          rcases List.mem_cons.1 hd with rfl | hd
          · exact h
          · have := hs.1 d hd; simp only at this; omega)
      · rfl
    · split
      · rename_i h; subst h
        simp only [Memory.read]
        split
        · subst b; exact Memory.read_below _ _ hs.1
        · rfl
      · simp only [Memory.read, ih hs.2]
        split <;> split <;> simp_all

/-! ### The canonical form -/

theorem Memory.mem_put {m : Memory} {a : Nat} {v : Byte} {c : Host.Cell} (h : c ∈ m.put a v) :
    c = (a, v) ∨ c ∈ m := by
  induction m with
  | nil => exact .inl (by simpa [Memory.put] using h)
  | cons d m ih =>
    simp only [Memory.put] at h
    split at h
    · simpa using h
    · split at h
      · rcases List.mem_cons.1 h with h | h
        · exact .inl h
        · exact .inr (by simp [h])
      · rcases List.mem_cons.1 h with h | h
        · exact .inr (by simp [h])
        · rcases ih h with h | h
          · exact .inl h
          · exact .inr (by simp [h])

theorem Memory.mem_clear {m : Memory} {a : Nat} {c : Host.Cell} (h : c ∈ m.clear a) : c ∈ m := by
  induction m with
  | nil => simp [Memory.clear] at h
  | cons d m ih =>
    simp only [Memory.clear] at h
    split at h
    · exact h
    · split at h
      · simp [h]
      · rcases List.mem_cons.1 h with h | h
        · simp [h]
        · simp [ih h]

theorem Memory.pairwise_put (m : Memory) (a : Nat) (v : Byte)
    (hs : m.Pairwise (fun c d => c.1 < d.1)) : (m.put a v).Pairwise (fun c d => c.1 < d.1) := by
  induction m with
  | nil => simp [Memory.put]
  | cons d m ih =>
    have hs' := hs
    rw [List.pairwise_cons] at hs
    simp only [Memory.put]
    split
    · rename_i h
      refine List.pairwise_cons.2 ⟨?_, hs'⟩
      intro e he
      rcases List.mem_cons.1 he with rfl | he
      · exact h
      · have := hs.1 e he; simp only; omega
    · split
      · rename_i h; subst h
        exact List.pairwise_cons.2 ⟨hs.1, hs.2⟩
      · refine List.pairwise_cons.2 ⟨?_, ih hs.2⟩
        intro e he
        rcases Memory.mem_put he with rfl | he
        · simp only; omega
        · exact hs.1 e he

theorem Memory.pairwise_clear (m : Memory) (a : Nat)
    (hs : m.Pairwise (fun c d => c.1 < d.1)) : (m.clear a).Pairwise (fun c d => c.1 < d.1) := by
  induction m with
  | nil => exact hs
  | cons d m ih =>
    have hs' := hs
    rw [List.pairwise_cons] at hs
    simp only [Memory.clear]
    split
    · exact hs'
    · split
      · exact hs.2
      · exact List.pairwise_cons.2 ⟨fun e he => hs.1 e (Memory.mem_clear he), ih hs.2⟩

/-- A write keeps the canonical form. -/
theorem Memory.wf_write (m : Memory) (a : Nat) (v : Byte) (h : m.wf) : (m.write a v).wf := by
  unfold Memory.write
  split
  · rename_i ha
    split
    · exact ⟨Memory.pairwise_clear m a h.1, fun c hc => h.2 c (Memory.mem_clear hc)⟩
    · rename_i hv
      refine ⟨Memory.pairwise_put m a v h.1, fun c hc => ?_⟩
      rcases Memory.mem_put hc with rfl | hc
      · exact ⟨ha, hv⟩
      · exact h.2 c hc
  · exact h

/-- A read after a write: the value at the address written, every other address as before. -/
theorem Memory.read_write (m : Memory) (a b : Nat) (v : Byte) (h : m.wf) (ha : a < 4096) :
    (m.write a v).read b = if b = a then v else m.read b := by
  unfold Memory.write
  rw [if_pos (by simpa using ha)]
  split
  · rename_i hv; rw [Memory.read_clear m a b h.1, ← hv]
  · exact Memory.read_put m a b v

theorem Memory.read_write_other (m : Memory) (a b : Nat) (v : Byte) (hb : b ≠ a) :
    (m.write a v).read b = m.read b := by
  unfold Memory.write
  split
  · split
    · clear * - hb
      induction m with
      | nil => rfl
      | cons c m ih =>
        simp only [Memory.clear]
        split
        · rfl
        · split
          · rename_i h; simp only [Memory.read]; rw [if_neg (by omega)]
          · simp only [Memory.read, ih]
    · rw [Memory.read_put, if_neg hb]
  · rfl

/-- The memory built from a function of addresses is canonical. -/
theorem Memory.wf_ofBytes (f : Nat → Byte) : (Memory.ofBytes f).wf := by
  refine ⟨?_, ?_⟩
  · refine List.Pairwise.filterMap _ ?_ List.pairwise_lt_range
    intro a a' haa b hb b' hb'
    split at hb <;> split at hb' <;> simp_all
    rw [← hb, ← hb']; exact haa
  · intro c hc
    simp only [Memory.ofBytes, List.mem_filterMap, List.mem_range] at hc
    obtain ⟨a, ha, h⟩ := hc
    split at h
    · simp at h
    · simp only [Option.some.injEq] at h
      subst h
      exact ⟨ha, by assumption⟩

/-- A listed cell is what its address reads as. -/
theorem Memory.read_of_mem {m : Memory} (hs : m.Pairwise (fun c d => c.1 < d.1)) {c : Host.Cell}
    (hc : c ∈ m) : m.read c.1 = c.2 := by
  induction m with
  | nil => simp at hc
  | cons d m ih =>
    rw [List.pairwise_cons] at hs
    rcases List.mem_cons.1 hc with rfl | hc
    · simp [Memory.read]
    · have := hs.1 c hc
      simp only [Memory.read]
      rw [if_neg (by omega)]
      exact ih hs.2 hc

/-- An address no cell lists reads as its background. -/
theorem Memory.read_of_not_mem {m : Memory} {a : Nat} (h : ∀ c ∈ m, c.1 ≠ a) :
    m.read a = background a := by
  induction m with
  | nil => rfl
  | cons d m ih =>
    simp only [Memory.read]
    rw [if_neg (fun he => h d (by simp) he.symm)]
    exact ih (fun c hc => h c (by simp [hc]))

/-- Every address of the space reads as the function the memory was built from. -/
theorem Memory.read_ofBytes (f : Nat → Byte) {a : Nat} (ha : a < 4096) :
    (Memory.ofBytes f).read a = f a := by
  by_cases hf : f a = background a
  · rw [Memory.read_of_not_mem, hf]
    intro c hc hca
    have h2 := (Memory.wf_ofBytes f).2 c hc
    simp only [Memory.ofBytes, List.mem_filterMap, List.mem_range] at hc
    obtain ⟨b, _, h⟩ := hc
    split at h
    · simp at h
    · simp only [Option.some.injEq] at h
      subst h
      simp only at hca
      subst hca
      exact h2.2 hf
  · have hm : (a, f a) ∈ Memory.ofBytes f := by
      have hr : a ∈ List.range Config.memSize := List.mem_range.2 ha
      exact List.mem_filterMap.2 ⟨a, hr, if_neg hf⟩
    exact Memory.read_of_mem (c := (a, f a)) (Memory.wf_ofBytes f).1 hm

/-! ### Multi-byte transfers -/

/-- Storing a byte list keeps the canonical form. -/
theorem State.wf_storeBytes (s : State) (a : Nat) (bs : List Byte) (h : s.mem.wf) :
    (s.storeBytes a bs).mem.wf := by
  induction bs generalizing s a with
  | nil => exact h
  | cons b bs ih => exact ih (s.memWrite a b) (a + 1) (Memory.wf_write _ _ _ h)

/-- The bytes outside a stored range read as before. -/
theorem State.memRead_storeBytes_other (s : State) (a : Nat) (bs : List Byte) (c : Nat)
    (hc : ¬ (a ≤ c ∧ c < a + bs.length)) : (s.storeBytes a bs).memRead c = s.memRead c := by
  induction bs generalizing s a with
  | nil => rfl
  | cons b bs ih =>
    simp only [List.length_cons] at hc
    simp only [State.storeBytes]
    rw [ih _ _ (by omega)]
    exact Memory.read_write_other _ _ _ _ (by omega)

/-- The bytes of a stored range read as the list. -/
theorem State.memRead_storeBytes (s : State) (a : Nat) (bs : List Byte) (k : Nat) (h : s.mem.wf)
    (ha : a + bs.length ≤ 4096) (hk : k < bs.length) :
    (s.storeBytes a bs).memRead (a + k) = bs[k] := by
  induction bs generalizing s a k with
  | nil => simp at hk
  | cons b bs ih =>
    simp only [List.length_cons] at ha hk
    simp only [State.storeBytes]
    cases k with
    | zero =>
      rw [State.memRead_storeBytes_other _ _ _ _ (by omega)]
      have := Memory.read_write s.mem a a b h (by omega)
      simpa [State.memRead] using this
    | succ k =>
      have h1 : a + (k + 1) = (a + 1) + k := by omega
      rw [h1, ih (s.memWrite a b) (a + 1) k (Memory.wf_write _ _ _ h) (by omega) (by omega)]
      simp

@[simp] theorem State.length_loadBytes (s : State) (a n : Nat) : (s.loadBytes a n).length = n := by
  induction n generalizing a with
  | zero => rfl
  | succ n ih => simp [State.loadBytes, ih]

/-- Byte `k` of a loaded range is the byte at `a + k`. -/
theorem State.getElem_loadBytes (s : State) (a n k : Nat) (hk : k < (s.loadBytes a n).length) :
    (s.loadBytes a n)[k] = s.memRead (a + k) := by
  induction n generalizing a k with
  | zero => simp at hk
  | succ n ih =>
    cases k with
    | zero => simp [State.loadBytes]
    | succ k =>
      simp only [State.loadBytes, List.getElem_cons_succ]
      rw [ih]
      congr 1; omega

@[simp] theorem State.length_regBlock (s : State) (x : Reg) : (s.regBlock x).length = x.val + 1 := by
  have := x.isLt
  simp [State.regBlock, blockCount]

/-- Byte `k` of the register block is V[k]. -/
theorem State.getElem_regBlock (s : State) (x : Reg) (k : Reg) (hk : k.val < (s.regBlock x).length) :
    (s.regBlock x)[k.val] = s.v k := by
  simp [State.regBlock, State.v]

/-! ### The range check -/

/-- The range check passes exactly when every address of the range lies in the space (R55). -/
theorem firstOutOfRange_eq_none {base count : Nat} :
    firstOutOfRange base count = none ↔ count = 0 ∨ base + (count - 1) ≤ 4095 := by
  unfold firstOutOfRange
  split <;> simp_all
  split <;> simp_all
  all_goals omega

/-- Otherwise it names the lowest address beyond 4095 (R170). -/
theorem firstOutOfRange_eq_some {base count a : Nat} :
    firstOutOfRange base count = some a ↔
      count ≠ 0 ∧ 4095 < base + (count - 1) ∧ a = if 4095 < base then base else 4096 := by
  unfold firstOutOfRange
  split
  · simp_all
  · split
    · simp only [Option.some.injEq]; omega
    · split
      · simp only [Option.some.injEq]; omega
      · simp; omega

/-- What the checked body of a transfer answers: itself, or the fault with the lowest bad address. -/
theorem withRange_cases (s : State) (i : Instr) (base count : Nat) (body : State) :
    (count = 0 ∨ base + (count - 1) ≤ 4095) ∧ withRange s i base count body = .next body ∨
    (count ≠ 0 ∧ 4095 < base + (count - 1)) ∧ withRange s i base count body =
      .next (s.raise .dataOutOfRange (encode i) (if 4095 < base then base else 4096)) := by
  unfold withRange
  cases h : firstOutOfRange base count with
  | none => exact .inl ⟨firstOutOfRange_eq_none.1 h, rfl⟩
  | some a =>
    obtain ⟨h1, h2, h3⟩ := firstOutOfRange_eq_some.1 h
    exact .inr ⟨⟨h1, h2⟩, by rw [← h3]; rfl⟩

/-- Memory right after reset is canonical: it lists nothing. -/
theorem State.reset_mem_wf : State.reset.mem.wf := by
  simp [State.reset, Memory.wf]

end Sys2Proof.Machine
end

