-- ==== Sys2Proof/Laws/Construct.lean ====
section
/-! SUPPORT. What construction leaves (70_reset_and_hazards.md R271–R273), field by field. -/

namespace Sys2Proof.Machine

theorem imageFits_iff (img : List Byte) : imageFits img = true ↔ img.length ≤ 4096 := by
  unfold imageFits
  rw [decide_eq_true_iff]
  rfl

theorem construct_of_fits (font : Font) (mode : SubnFlag) {img : List Byte} (h : img.length ≤ 4096) :
    construct font mode img = .ok (constructed font mode img) := by
  unfold construct
  simp only [(imageFits_iff img).2 h, if_true]

@[simp] theorem constructed_mem (font : Font) (mode : SubnFlag) (img : List Byte) :
    (constructed font mode img).mem = Memory.ofBytes (constructedByte font img) := by
  simp only [constructed]

@[simp] theorem constructed_subnFlag (font : Font) (mode : SubnFlag) (img : List Byte) :
    (constructed font mode img).subnFlag = mode := by
  simp only [constructed]

/-- A constructed machine is the reset machine but for its memory and its parameter. -/
theorem constructed_eq (font : Font) (mode : SubnFlag) (img : List Byte) :
    constructed font mode img =
      { State.reset with
        mem := (constructed font mode img).mem, subnFlag := (constructed font mode img).subnFlag } := by
  rw [constructed_mem, constructed_subnFlag, constructed]

/-- A byte of a constructed machine. -/
theorem memRead_constructed (font : Font) (mode : SubnFlag) (img : List Byte) {a : Nat} (ha : a < 4096) :
    (constructed font mode img).memRead a = constructedByte font img a := by
  rw [State.memRead, constructed_mem, Memory.read_ofBytes _ ha]

end Sys2Proof.Machine
end

