-- ==== Sys2Proof/Laws/Display.lean ====
section
/-! SUPPORT. The framebuffer's cells after each operation of the rasterizer (44_display.md R191–R193). -/

namespace Sys2Proof.Machine

/-- A flip changes its own cell and no other. -/
theorem FrameBuffer.get_flip (fb : FrameBuffer) (c c' : Fin 64) (r r' : Fin 32) :
    (fb.flip c r).get c' r' = (fb.get c' r' != decide (c = c' ∧ r = r')) := by
  simp only [FrameBuffer.flip, FrameBuffer.get, Vector.getElem_set]
  split
  · rename_i h
    have hr : r = r' := Fin.ext h
    subst hr
    have := c.isLt
    simp only [BitVec.getLsbD_xor, BitVec.getLsbD_twoPow, Fin.ext_iff, and_true]
    rw [decide_eq_true this, Bool.true_and]
  · rename_i h
    have hr : ¬ r = r' := fun he => h (by rw [he])
    simp [hr]

@[simp] theorem FrameBuffer.get_blank (c : Fin 64) (r : Fin 32) : FrameBuffer.blank.get c r = false := by
  simp [FrameBuffer.blank, FrameBuffer.get]

/-- Two framebuffers with the same cells are equal. -/
theorem FrameBuffer.ext_get {fb fb' : FrameBuffer} (h : ∀ c r, fb.get c r = fb'.get c r) : fb = fb' := by
  apply Vector.ext
  intro i hi
  apply BitVec.eq_of_getLsbD_eq
  intro j hj
  exact h ⟨j, hj⟩ ⟨i, hi⟩

/-- One sprite bit: its cell is flipped when the bit is set, and a collision is a set bit on a set cell. -/
theorem drawBit_get (col c : Fin 64) (lin r : Fin 32) (bit : Bool) (p : FrameBuffer × Bool) :
    (drawBit col lin bit p).1.get c r = (p.1.get c r != (bit && decide (col = c ∧ lin = r))) := by
  unfold drawBit
  cases bit <;> simp [FrameBuffer.get_flip]

theorem drawBit_hit (col : Fin 64) (lin : Fin 32) (bit : Bool) (p : FrameBuffer × Bool) :
    (drawBit col lin bit p).2 = (p.2 || (bit && p.1.get col lin)) := by
  unfold drawBit
  cases bit <;> simp

/-! ### Rows and sprites -/

/-- Some of the first `m` bits of a row is set and falls on the cell. -/
def rowHit (cx : Byte) (lin : Fin 32) (row : Byte) (m : Nat) (c : Fin 64) (r : Fin 32) : Prop :=
  ∃ b, b < m ∧ rowbit row b = true ∧ spriteCol cx b = c ∧ lin = r

/-- Some set bit of some row falls on the cell; the first row is row `r0` of the blit. -/
def rowsHit (cx cy : Byte) (r0 : Nat) (rows : List Byte) (c : Fin 64) (r : Fin 32) : Prop :=
  ∃ k, ∃ h : k < rows.length, rowHit cx (spriteRow cy (r0 + k)) rows[k] 8 c r

/-- The eight columns of a row are distinct (R193). -/
theorem spriteCol_inj {cx : Byte} {a b : Nat} (ha : a < 8) (hb : b < 8)
    (h : spriteCol cx a = spriteCol cx b) : a = b := by
  have := congrArg Fin.val h
  simp only [spriteCol, Fin.val_ofNat] at this
  omega

/-- The rows of a sprite are distinct (R193). -/
theorem spriteRow_inj {cy : Byte} {a b : Nat} (ha : a < 16) (hb : b < 16)
    (h : spriteRow cy a = spriteRow cy b) : a = b := by
  have := congrArg Fin.val h
  simp only [spriteRow, Fin.val_ofNat] at this
  omega

/-- The first `m` bits of a row: exactly the cells hit are inverted, and a collision is a hit on a cell
that was on before. -/
theorem drawBits_spec (cx : Byte) (lin : Fin 32) (row : Byte) (p : FrameBuffer × Bool) (m : Nat)
    (hm : m ≤ 8) :
    let q := (List.range m).foldl (fun q b => drawBit (spriteCol cx b) lin (rowbit row b) q) p
    (∀ c r, q.1.get c r ≠ p.1.get c r ↔ rowHit cx lin row m c r) ∧
    (q.2 = true ↔ p.2 = true ∨ ∃ c r, rowHit cx lin row m c r ∧ p.1.get c r = true) := by
  induction m with
  | zero => simp [rowHit]
  | succ m ih =>
    obtain ⟨h1, h2⟩ := ih (by omega)
    simp only [List.range_succ, List.foldl_append, List.foldl_cons, List.foldl_nil]
    generalize (List.range m).foldl (fun q b => drawBit (spriteCol cx b) lin (rowbit row b) q) p = q at *
    have fresh : ∀ r, ¬ rowHit cx lin row m (spriteCol cx m) r := by
      rintro r ⟨b, hb, _, h, _⟩
      have := spriteCol_inj (by omega) (by omega) h
      omega
    have grow : ∀ c r, rowHit cx lin row (m + 1) c r ↔
        rowHit cx lin row m c r ∨ (rowbit row m = true ∧ spriteCol cx m = c ∧ lin = r) := by
      intro c r
      constructor
      · rintro ⟨b, hb, h⟩
        rcases Nat.lt_succ_iff_lt_or_eq.1 hb with hb | rfl
        · exact .inl ⟨b, hb, h⟩
        · exact .inr h
      · rintro (⟨b, hb, h⟩ | h)
        · exact ⟨b, by omega, h⟩
        · exact ⟨m, by omega, h⟩
    have same : q.1.get (spriteCol cx m) lin = p.1.get (spriteCol cx m) lin := by
      have hf := fresh lin
      rw [← h1] at hf
      simpa using hf
    constructor
    · intro c r
      rw [drawBit_get, grow, ← h1]
      by_cases hn : rowbit row m = true ∧ spriteCol cx m = c ∧ lin = r
      · obtain ⟨e1, e2, e3⟩ := hn
        subst e2 e3
        simp [e1, same]
      · have : (rowbit row m && decide (spriteCol cx m = c ∧ lin = r)) = false := by
          simpa using hn
        rw [this, Bool.bne_false]
        simp [hn]
    · rw [drawBit_hit]
      simp only [Bool.or_eq_true, Bool.and_eq_true, h2, same, grow]
      constructor
      · rintro ((h | ⟨c, r, h, hp⟩) | ⟨h, hp⟩)
        · exact .inl h
        · exact .inr ⟨c, r, .inl h, hp⟩
        · exact .inr ⟨_, _, .inr ⟨h, rfl, rfl⟩, hp⟩
      · rintro (h | ⟨c, r, h | ⟨h, rfl, rfl⟩, hp⟩)
        · exact .inl (.inl h)
        · exact .inl (.inr ⟨c, r, h, hp⟩)
        · exact .inr ⟨h, hp⟩

/-- The rows of a sprite: exactly the cells hit are inverted, and a collision is a hit on a cell that was
on before (R192, R193). -/
theorem drawRows_spec (cx cy : Byte) (rows : List Byte) (r0 : Nat) (p : FrameBuffer × Bool)
    (h : r0 + rows.length ≤ 16) :
    (∀ c r, (drawRows cx cy r0 rows p).1.get c r ≠ p.1.get c r ↔ rowsHit cx cy r0 rows c r) ∧
    ((drawRows cx cy r0 rows p).2 = true ↔
      p.2 = true ∨ ∃ c r, rowsHit cx cy r0 rows c r ∧ p.1.get c r = true) := by
  induction rows generalizing r0 p with
  | nil => simp [drawRows, rowsHit]
  | cons row rows ih =>
    simp only [List.length_cons] at h
    simp only [drawRows]
    obtain ⟨g1, g2⟩ := drawBits_spec cx (spriteRow cy r0) row p 8 le_rfl
    obtain ⟨h1, h2⟩ := ih (r0 + 1) (drawRow cx (spriteRow cy r0) row p) (by omega)
    change (∀ c r, (drawRow cx (spriteRow cy r0) row p).1.get c r ≠ _ ↔ _) at g1
    change ((drawRow cx (spriteRow cy r0) row p).2 = true ↔ _) at g2
    generalize drawRow cx (spriteRow cy r0) row p = q at *
    have parts : ∀ c r, rowsHit cx cy r0 (row :: rows) c r ↔
        rowHit cx (spriteRow cy r0) row 8 c r ∨ rowsHit cx cy (r0 + 1) rows c r := by
      intro c r
      constructor
      · rintro ⟨k, hk, h⟩
        cases k with
        | zero => exact .inl h
        | succ k =>
          exact .inr ⟨k, by simpa using hk, by simpa [Nat.add_assoc, Nat.add_comm 1 k] using h⟩
      · rintro (h | ⟨k, hk, h⟩)
        · exact ⟨0, by simp, h⟩
        · exact ⟨k + 1, by simpa using hk, by simpa [Nat.add_assoc, Nat.add_comm 1 k] using h⟩
    have apart : ∀ c r, rowHit cx (spriteRow cy r0) row 8 c r → ¬ rowsHit cx cy (r0 + 1) rows c r := by
      rintro c r ⟨b, _, _, _, e⟩ ⟨k, hk, b', _, _, _, e'⟩
      have := spriteRow_inj (by omega) (by omega) (e.trans e'.symm)
      omega
    have kept : ∀ c r, rowsHit cx cy (r0 + 1) rows c r → q.1.get c r = p.1.get c r := by
      intro c r hr
      have hn : ¬ rowHit cx (spriteRow cy r0) row 8 c r := fun hh => apart c r hh hr
      rw [← g1] at hn
      simpa using hn
    constructor
    · intro c r
      rw [parts]
      have a1 := g1 c r
      have a2 := h1 c r
      have a3 := apart c r
      generalize (drawRows cx cy (r0 + 1) rows q).1.get c r = z at *
      generalize q.1.get c r = y at *
      generalize p.1.get c r = x at *
      by_cases e1 : rowHit cx (spriteRow cy r0) row 8 c r <;>
        by_cases e2 : rowsHit cx cy (r0 + 1) rows c r <;> simp_all
    · rw [h2, g2]
      simp only [parts]
      constructor
      · rintro ((h | ⟨c, r, h, hp⟩) | ⟨c, r, h, hp⟩)
        · exact .inl h
        · exact .inr ⟨c, r, .inl h, hp⟩
        · exact .inr ⟨c, r, .inr h, by rw [← kept c r h]; exact hp⟩
      · rintro (h | ⟨c, r, h | h, hp⟩)
        · exact .inl (.inl h)
        · exact .inl (.inr ⟨c, r, h, hp⟩)
        · exact .inr ⟨c, r, h, by rw [kept c r h]; exact hp⟩

end Sys2Proof.Machine
end

