-- ==== Sys2Proof/Laws/Encode.lean ====
section
/-! SUPPORT. The three formats of 30_encoding.md R71 as numbers, and the fields read back from them. -/

namespace Sys2Proof

theorem toNat_append_eq {m n : Nat} (a : BitVec m) (b : BitVec n) :
    (a ++ b).toNat = a.toNat * 2 ^ n + b.toNat := by
  rw [BitVec.toNat_append, ← Nat.shiftLeft_add_eq_or_of_lt b.isLt, Nat.shiftLeft_eq]

@[simp] theorem toNat_regBits (r : Reg) : (regBits r).toNat = r.val := rfl

theorem formNnn_toNat (op : Nibble) (nnn : Addr) :
    (formNnn op nnn).toNat = 4096 * op.toNat + nnn.toNat := by
  have := toNat_append_eq op nnn
  simp only [formNnn]; omega

theorem formXNn_toNat (op : Nibble) (x : Reg) (nn : Byte) :
    (formXNn op x nn).toNat = 4096 * op.toNat + 256 * x.val + nn.toNat := by
  have h1 := toNat_append_eq (op ++ regBits x) nn
  have h2 := toNat_append_eq op (regBits x)
  simp only [toNat_regBits] at h2
  simp only [formXNn]; omega

theorem formXYN_toNat (op : Nibble) (x y : Reg) (n : Nibble) :
    (formXYN op x y n).toNat = 4096 * op.toNat + 256 * x.val + 16 * y.val + n.toNat := by
  have h1 := toNat_append_eq (op ++ regBits x ++ regBits y) n
  have h2 := toNat_append_eq (op ++ regBits x) (regBits y)
  have h3 := toNat_append_eq op (regBits x)
  simp only [toNat_regBits] at h2 h3
  simp only [formXYN]; omega

/-! ### Fields as numbers -/

theorem opField_eq (w : Word) : opField w = w.toNat / 4096 := by
  have := w.isLt
  simp [opField, Nat.shiftRight_eq_div_pow]; omega

theorem xField_val (w : Word) : (xField w).val = w.toNat / 256 % 16 := by
  simp [xField, Nat.shiftRight_eq_div_pow]

theorem yField_val (w : Word) : (yField w).val = w.toNat / 16 % 16 := by
  simp [yField, Nat.shiftRight_eq_div_pow]

theorem nField_toNat (w : Word) : (nField w).toNat = w.toNat % 16 := by
  simp [nField]

theorem nnField_toNat (w : Word) : (nnField w).toNat = w.toNat % 256 := by
  simp [nnField]

theorem nnnField_toNat (w : Word) : (nnnField w).toNat = w.toNat % 4096 := by
  simp [nnnField]

/-! ### Fields of the formats -/

@[simp] theorem opField_formNnn (op : Nibble) (nnn : Addr) : opField (formNnn op nnn) = op.toNat := by
  have := nnn.isLt
  rw [opField_eq, formNnn_toNat]; omega

@[simp] theorem nnnField_formNnn (op : Nibble) (nnn : Addr) : nnnField (formNnn op nnn) = nnn := by
  have := nnn.isLt
  apply BitVec.eq_of_toNat_eq
  rw [nnnField_toNat, formNnn_toNat]; omega

@[simp] theorem opField_formXNn (op : Nibble) (x : Reg) (nn : Byte) :
    opField (formXNn op x nn) = op.toNat := by
  have := nn.isLt
  have := x.isLt
  rw [opField_eq, formXNn_toNat]; omega

@[simp] theorem xField_formXNn (op : Nibble) (x : Reg) (nn : Byte) :
    xField (formXNn op x nn) = x := by
  have := nn.isLt
  have := x.isLt
  apply Fin.ext
  rw [xField_val, formXNn_toNat]; omega

@[simp] theorem nnField_formXNn (op : Nibble) (x : Reg) (nn : Byte) :
    nnField (formXNn op x nn) = nn := by
  have := nn.isLt
  apply BitVec.eq_of_toNat_eq
  rw [nnField_toNat, formXNn_toNat]; omega

@[simp] theorem opField_formXYN (op : Nibble) (x y : Reg) (n : Nibble) :
    opField (formXYN op x y n) = op.toNat := by
  have := n.isLt
  have := x.isLt
  have := y.isLt
  rw [opField_eq, formXYN_toNat]; omega

@[simp] theorem xField_formXYN (op : Nibble) (x y : Reg) (n : Nibble) :
    xField (formXYN op x y n) = x := by
  have := n.isLt
  have := x.isLt
  have := y.isLt
  apply Fin.ext
  rw [xField_val, formXYN_toNat]; omega

@[simp] theorem yField_formXYN (op : Nibble) (x y : Reg) (n : Nibble) :
    yField (formXYN op x y n) = y := by
  have := n.isLt
  have := y.isLt
  apply Fin.ext
  rw [yField_val, formXYN_toNat]; omega

@[simp] theorem nField_formXYN (op : Nibble) (x y : Reg) (n : Nibble) :
    nField (formXYN op x y n) = n := by
  have := n.isLt
  apply BitVec.eq_of_toNat_eq
  rw [nField_toNat, formXYN_toNat]; omega

/-! ### The masks of the opcode map -/

theorem and_zero_field {n : Nat} (a : BitVec n) : a &&& 0 = 0 := BitVec.and_zero

theorem formNnn_and (op : Nibble) (nnn : Addr) : formNnn op nnn &&& 0xF000 = formNnn op 0 := by
  have h : (0xF000 : Word) = (0xF : Nibble) ++ (0 : Addr) := rfl
  have ho : op &&& 0xF = op := BitVec.and_allOnes
  rw [h, formNnn, BitVec.and_append, ho, and_zero_field, formNnn]

theorem formXNn_and (op : Nibble) (x : Reg) (nn : Byte) :
    formXNn op x nn &&& 0xF000 = formXNn op 0 0 := by
  have h : (0xF000 : Word) = (0xF : Nibble) ++ (0 : Nibble) ++ (0 : Byte) := rfl
  have ho : op &&& 0xF = op := BitVec.and_allOnes
  rw [h, formXNn, BitVec.and_append, BitVec.and_append, ho, and_zero_field, and_zero_field]
  rfl

theorem formXNn_and_low (op : Nibble) (x : Reg) (nn : Byte) :
    formXNn op x nn &&& 0xF0FF = formXNn op 0 nn := by
  have h : (0xF0FF : Word) = (0xF : Nibble) ++ (0 : Nibble) ++ (0xFF : Byte) := rfl
  have ho : op &&& 0xF = op := BitVec.and_allOnes
  have hn : nn &&& 0xFF = nn := BitVec.and_allOnes
  rw [h, formXNn, BitVec.and_append, BitVec.and_append, ho, hn, and_zero_field]
  rfl

theorem formXYN_and (op : Nibble) (x y : Reg) (n : Nibble) :
    formXYN op x y n &&& 0xF000 = formXYN op 0 0 0 := by
  have h : (0xF000 : Word) = (0xF : Nibble) ++ (0 : Nibble) ++ (0 : Nibble) ++ (0 : Nibble) := rfl
  have ho : op &&& 0xF = op := BitVec.and_allOnes
  rw [h, formXYN, BitVec.and_append, BitVec.and_append, BitVec.and_append, ho]
  simp only [and_zero_field]
  rfl

theorem formXYN_and_low (op : Nibble) (x y : Reg) (n : Nibble) :
    formXYN op x y n &&& 0xF00F = formXYN op 0 0 n := by
  have h : (0xF00F : Word) = (0xF : Nibble) ++ (0 : Nibble) ++ (0 : Nibble) ++ (0xF : Nibble) := rfl
  have ho : op &&& 0xF = op := BitVec.and_allOnes
  have hn : n &&& 0xF = n := BitVec.and_allOnes
  rw [h, formXYN, BitVec.and_append, BitVec.and_append, BitVec.and_append, ho, hn]
  simp only [and_zero_field]
  rfl

end Sys2Proof
end

