-- ==== Sys2Proof/Laws/Ops.lean ====
section
/-! SUPPORT. What the stack, flag, timer and input operations can do, each said once. -/

namespace Sys2Proof.Machine

/-! ### Call stack -/

/-- A push answers a state exactly when the stack is not full (R123). -/
theorem State.push_eq_none (s : State) (v : Word) : s.push v = none ↔ s.sp.val = 16 := by
  have := s.sp.isLt
  unfold State.push
  split
  · simp; omega
  · simp; omega

/-- What a push leaves: the entry at sp, and sp one higher. -/
theorem State.push_eq_some {s t : State} {v : Word} (h : s.push v = some t) :
    ∃ k : Fin 16, s.sp.val = k.val ∧ t = { s with stack := s.stack.set k.val v k.isLt, sp := k.succ } := by
  unfold State.push at h
  split at h
  · rename_i hk
    exact ⟨⟨s.sp.val, hk⟩, rfl, (Option.some.inj h).symm⟩
  · simp at h

/-- A pop answers a state exactly when the stack is not empty (R121). -/
theorem State.pop_eq_none (s : State) : s.pop = none ↔ s.sp.val = 0 := by
  unfold State.pop
  split <;> simp_all

/-- What a pop gives: the entry below sp, and sp one lower. -/
theorem State.pop_eq_some {s t : State} {v : Word} (h : s.pop = some (v, t)) :
    ∃ k : Fin 16, s.sp.val = k.val + 1 ∧ v = s.stack[k] ∧ t = { s with sp := k.castSucc } := by
  have hs := s.sp.isLt
  unfold State.pop at h
  split at h
  · simp at h
  · rename_i h0
    simp only [Option.some.injEq, Prod.mk.injEq] at h
    refine ⟨⟨s.sp.val - 1, by omega⟩, by simp only; omega, h.1.symm, h.2.symm⟩

/-! ### Flags -/

@[simp] theorem flagByte_true : flagByte true = 1 := rfl

@[simp] theorem flagByte_false : flagByte false = 0 := rfl

/-- A flag is 0 or 1. -/
theorem flagByte_cases (b : Bool) : flagByte b = 0 ∨ flagByte b = 1 := by cases b <;> simp

/-! ### Timers and inputs -/

/-- The countdown as a natural number: one less on a tick, never below 0 (R241). -/
theorem countdown_toNat (tick : Bool) (t : Byte) :
    (countdown tick t).toNat = if tick then t.toNat - 1 else t.toNat := by
  unfold countdown
  split
  · rename_i h; subst h; simp
  · rename_i h
    cases tick
    · simp
    · have h0 : t.toNat ≠ 0 := fun hz => h (BitVec.eq_of_toNat_eq (by simpa using hz))
      have := t.isLt
      have h1 : (1 : Byte).toNat = 1 := rfl
      have h2 := BitVec.toNat_sub t 1
      simp only [if_true]
      omega

/-- A timer at 0 needs no tick to be known. -/
@[simp] theorem countdown_zero (tick : Bool) : countdown tick 0 = 0 := by simp [countdown]

/-- The input a scripted state reads. -/
@[simp] theorem State.input_cons {s : State} {i : StepInput} {rest : List StepInput}
    (h : s.inputs = i :: rest) : s.input = i := by simp [State.input, h]

/-- The input after which the script is used up is a free draw. -/
theorem State.input_nil {s : State} (h : s.inputs = []) : s.input = Config.draw s.drawn := by
  simp [State.input, h]

/-- A step uses up one given input. -/
theorem State.nextInput_cons {s : State} {i : StepInput} {rest : List StepInput}
    (h : s.inputs = i :: rest) : s.nextInput.inputs = rest ∧ s.nextInput.drawn = s.drawn := by
  simp [State.nextInput, h]

/-- A step without a given input uses up one free draw. -/
theorem State.nextInput_nil {s : State} (h : s.inputs = []) :
    s.nextInput.inputs = [] ∧ s.nextInput.drawn = s.drawn + 1 := by
  simp [State.nextInput, h]

end Sys2Proof.Machine
end

