-- ==== Sys2Proof/Laws/PerInstr.lean ====
section
/-! SUPPORT. The per-instruction family EncodesItsRow: the word of an instruction selects the row of the
opcode map (30_encoding.md R75) that carries its mnemonic. -/

namespace Sys2Proof.Laws.EncodesItsRow

/-- Some row of the opcode map has the instruction's mnemonic and is selected by its word. -/
def Statement (i : Instr) : Prop :=
  ∃ row ∈ opcodeMap, row.mnemonic = i.mnemonic ∧ row.selects (encode i) = true

/-- The row is in the map, and the masked word is its pattern. -/
theorem of_row {i : Instr} {m : String} {p k : Word} (hm : (⟨m, p, k⟩ : OpcodeRow) ∈ opcodeMap)
    (hi : m = i.mnemonic) (hw : encode i &&& k = p) : Statement i :=
  ⟨⟨m, p, k⟩, hm, hi, by simp [OpcodeRow.selects, hw]⟩

theorem cls : Statement .cls :=
  of_row (m := "CLS") (p := 0x00E0) (k := 0xFFFF) (by simp [opcodeMap]) rfl rfl

theorem ret : Statement .ret :=
  of_row (m := "RET") (p := 0x00EE) (k := 0xFFFF) (by simp [opcodeMap]) rfl rfl

theorem jp (nnn : Addr) : Statement (.jp nnn) :=
  of_row (m := "JP") (p := 0x1000) (k := 0xF000) (by simp [opcodeMap]) rfl (formNnn_and 0x1 nnn)

theorem call (nnn : Addr) : Statement (.call nnn) :=
  of_row (m := "CALL") (p := 0x2000) (k := 0xF000) (by simp [opcodeMap]) rfl (formNnn_and 0x2 nnn)

theorem seImm (x : Reg) (nn : Byte) : Statement (.seImm x nn) :=
  of_row (m := "SE_IMM") (p := 0x3000) (k := 0xF000) (by simp [opcodeMap]) rfl (formXNn_and 0x3 x nn)

theorem sneImm (x : Reg) (nn : Byte) : Statement (.sneImm x nn) :=
  of_row (m := "SNE_IMM") (p := 0x4000) (k := 0xF000) (by simp [opcodeMap]) rfl (formXNn_and 0x4 x nn)

theorem seReg (x y : Reg) : Statement (.seReg x y) :=
  of_row (m := "SE_REG") (p := 0x5000) (k := 0xF00F) (by simp [opcodeMap]) rfl (formXYN_and_low 0x5 x y 0x0)

theorem ldImm (x : Reg) (nn : Byte) : Statement (.ldImm x nn) :=
  of_row (m := "LD_IMM") (p := 0x6000) (k := 0xF000) (by simp [opcodeMap]) rfl (formXNn_and 0x6 x nn)

theorem addImm (x : Reg) (nn : Byte) : Statement (.addImm x nn) :=
  of_row (m := "ADD_IMM") (p := 0x7000) (k := 0xF000) (by simp [opcodeMap]) rfl (formXNn_and 0x7 x nn)

theorem ldReg (x y : Reg) : Statement (.ldReg x y) :=
  of_row (m := "LD_REG") (p := 0x8000) (k := 0xF00F) (by simp [opcodeMap]) rfl (formXYN_and_low 0x8 x y 0x0)

theorem or (x y : Reg) : Statement (.or x y) :=
  of_row (m := "OR") (p := 0x8001) (k := 0xF00F) (by simp [opcodeMap]) rfl (formXYN_and_low 0x8 x y 0x1)

theorem and (x y : Reg) : Statement (.and x y) :=
  of_row (m := "AND") (p := 0x8002) (k := 0xF00F) (by simp [opcodeMap]) rfl (formXYN_and_low 0x8 x y 0x2)

theorem xor (x y : Reg) : Statement (.xor x y) :=
  of_row (m := "XOR") (p := 0x8003) (k := 0xF00F) (by simp [opcodeMap]) rfl (formXYN_and_low 0x8 x y 0x3)

theorem addReg (x y : Reg) : Statement (.addReg x y) :=
  of_row (m := "ADD_REG") (p := 0x8004) (k := 0xF00F) (by simp [opcodeMap]) rfl (formXYN_and_low 0x8 x y 0x4)

theorem sub (x y : Reg) : Statement (.sub x y) :=
  of_row (m := "SUB") (p := 0x8005) (k := 0xF00F) (by simp [opcodeMap]) rfl (formXYN_and_low 0x8 x y 0x5)

theorem shr (x y : Reg) : Statement (.shr x y) :=
  of_row (m := "SHR") (p := 0x8006) (k := 0xF00F) (by simp [opcodeMap]) rfl (formXYN_and_low 0x8 x y 0x6)

theorem subn (x y : Reg) : Statement (.subn x y) :=
  of_row (m := "SUBN") (p := 0x8007) (k := 0xF00F) (by simp [opcodeMap]) rfl (formXYN_and_low 0x8 x y 0x7)

theorem shl (x y : Reg) : Statement (.shl x y) :=
  of_row (m := "SHL") (p := 0x800E) (k := 0xF00F) (by simp [opcodeMap]) rfl (formXYN_and_low 0x8 x y 0xE)

theorem sneReg (x y : Reg) : Statement (.sneReg x y) :=
  of_row (m := "SNE_REG") (p := 0x9000) (k := 0xF00F) (by simp [opcodeMap]) rfl (formXYN_and_low 0x9 x y 0x0)

theorem ldI (nnn : Addr) : Statement (.ldI nnn) :=
  of_row (m := "LD_I") (p := 0xA000) (k := 0xF000) (by simp [opcodeMap]) rfl (formNnn_and 0xA nnn)

theorem jpV0 (nnn : Addr) : Statement (.jpV0 nnn) :=
  of_row (m := "JP_V0") (p := 0xB000) (k := 0xF000) (by simp [opcodeMap]) rfl (formNnn_and 0xB nnn)

theorem rnd (x : Reg) (nn : Byte) : Statement (.rnd x nn) :=
  of_row (m := "RND") (p := 0xC000) (k := 0xF000) (by simp [opcodeMap]) rfl (formXNn_and 0xC x nn)

theorem drw (x y : Reg) (n : Nibble) : Statement (.drw x y n) :=
  of_row (m := "DRW") (p := 0xD000) (k := 0xF000) (by simp [opcodeMap]) rfl (formXYN_and 0xD x y n)

theorem skp (x : Reg) : Statement (.skp x) :=
  of_row (m := "SKP") (p := 0xE09E) (k := 0xF0FF) (by simp [opcodeMap]) rfl (formXNn_and_low 0xE x 0x9E)

theorem sknp (x : Reg) : Statement (.sknp x) :=
  of_row (m := "SKNP") (p := 0xE0A1) (k := 0xF0FF) (by simp [opcodeMap]) rfl (formXNn_and_low 0xE x 0xA1)

theorem ldVxDt (x : Reg) : Statement (.ldVxDt x) :=
  of_row (m := "LD_VX_DT") (p := 0xF007) (k := 0xF0FF) (by simp [opcodeMap]) rfl (formXNn_and_low 0xF x 0x07)

theorem ldVxK (x : Reg) : Statement (.ldVxK x) :=
  of_row (m := "LD_VX_K") (p := 0xF00A) (k := 0xF0FF) (by simp [opcodeMap]) rfl (formXNn_and_low 0xF x 0x0A)

theorem ldDtVx (x : Reg) : Statement (.ldDtVx x) :=
  of_row (m := "LD_DT_VX") (p := 0xF015) (k := 0xF0FF) (by simp [opcodeMap]) rfl (formXNn_and_low 0xF x 0x15)

theorem ldStVx (x : Reg) : Statement (.ldStVx x) :=
  of_row (m := "LD_ST_VX") (p := 0xF018) (k := 0xF0FF) (by simp [opcodeMap]) rfl (formXNn_and_low 0xF x 0x18)

theorem addI (x : Reg) : Statement (.addI x) :=
  of_row (m := "ADD_I") (p := 0xF01E) (k := 0xF0FF) (by simp [opcodeMap]) rfl (formXNn_and_low 0xF x 0x1E)

theorem ldF (x : Reg) : Statement (.ldF x) :=
  of_row (m := "LD_F") (p := 0xF029) (k := 0xF0FF) (by simp [opcodeMap]) rfl (formXNn_and_low 0xF x 0x29)

theorem ldB (x : Reg) : Statement (.ldB x) :=
  of_row (m := "LD_B") (p := 0xF033) (k := 0xF0FF) (by simp [opcodeMap]) rfl (formXNn_and_low 0xF x 0x33)

theorem ldMemVx (x : Reg) : Statement (.ldMemVx x) :=
  of_row (m := "LD_MEM_VX") (p := 0xF055) (k := 0xF0FF) (by simp [opcodeMap]) rfl (formXNn_and_low 0xF x 0x55)

theorem ldVxMem (x : Reg) : Statement (.ldVxMem x) :=
  of_row (m := "LD_VX_MEM") (p := 0xF065) (k := 0xF0FF) (by simp [opcodeMap]) rfl (formXNn_and_low 0xF x 0x65)

end Sys2Proof.Laws.EncodesItsRow
end

