-- ==== Sys2Proof/Laws/Step.lean ====
section
/-! SUPPORT. The branches of one step, and the shape of every instruction's answer. -/

namespace Sys2Proof.Machine

theorem State.fetch_eq_error {s : State} {a : Nat} :
    s.fetch = .error a ↔ 4094 < s.pc.toNat ∧ a = if 4095 < s.pc.toNat then s.pc.toNat else 4096 := by
  unfold State.fetch
  cases h : firstOutOfRange s.pc.toNat 2 with
  | none =>
    have := firstOutOfRange_eq_none.1 h
    simp only [reduceCtorEq, false_iff]; omega
  | some b =>
    have := firstOutOfRange_eq_some.1 h
    simp only [Except.error.injEq]
    constructor
    · rintro rfl; exact ⟨by omega, this.2.2⟩
    · rintro ⟨_, rfl⟩; exact this.2.2

theorem State.fetch_eq_ok {s : State} {w : Word} :
    s.fetch = .ok w ↔ s.pc.toNat ≤ 4094 ∧
      wordOfBytes (s.memRead s.pc.toNat) (s.memRead (s.pc.toNat + 1)) = w := by
  unfold State.fetch
  cases h : firstOutOfRange s.pc.toNat 2 with
  | none =>
    have := firstOutOfRange_eq_none.1 h
    simp only [Except.ok.injEq]
    exact ⟨fun h => ⟨by omega, h⟩, fun h => h.2⟩
  | some b =>
    have := firstOutOfRange_eq_some.1 h
    simp only [reduceCtorEq, false_iff]; omega

theorem step_of_halted {s : State} (h : s.halted = true) : step s = .fault (.halted s.fault) := by
  simp [step, h]

theorem step_of_fetch_error {s : State} {a : Nat} (h : s.halted = false) (hf : s.fetch = .error a) :
    step s = .next (s.raise .fetchOutOfRange 0 a) := by
  simp [step, h, hf]

theorem step_of_unsupported {s : State} {w : Word} {e : DecodeError} (h : s.halted = false)
    (hf : s.fetch = .ok w) (hd : decode w = .error e) :
    step s = .next (s.raise .unsupportedOpcode w 0) := by
  simp [step, runWord, h, hf, hd]

theorem step_of_decoded {s : State} {w : Word} {i : Instr} (h : s.halted = false)
    (hf : s.fetch = .ok w) (hd : decode w = .ok i) : step s = finish (exec i s) := by
  simp [step, runWord, h, hf, hd]

/-- Everything a step that answers a next state can have been. -/
theorem step_cases {s t : State} (h : step s = .next t) :
    s.halted = false ∧
    ((∃ a, s.fetch = .error a ∧ t = s.raise .fetchOutOfRange 0 a) ∨
     (∃ w e, s.fetch = .ok w ∧ decode w = .error e ∧ t = s.raise .unsupportedOpcode w 0) ∨
     (∃ w i u, s.fetch = .ok w ∧ decode w = .ok i ∧ exec i s = .next u ∧ t = u.endStep)) := by
  cases hh : s.halted with
  | true => rw [step_of_halted hh] at h; cases h
  | false =>
    refine ⟨rfl, ?_⟩
    cases hf : s.fetch with
    | error a =>
      rw [step_of_fetch_error hh hf] at h
      exact .inl ⟨a, rfl, (Host.Outcome.next.inj h).symm⟩
    | ok w =>
      cases hd : decode w with
      | error e =>
        rw [step_of_unsupported hh hf hd] at h
        exact .inr (.inl ⟨w, e, rfl, hd, (Host.Outcome.next.inj h).symm⟩)
      | ok i =>
        rw [step_of_decoded hh hf hd] at h
        cases he : exec i s with
        | next u =>
          rw [he] at h
          exact .inr (.inr ⟨w, i, u, rfl, hd, he, (Host.Outcome.next.inj h).symm⟩)
        | fault r => rw [he] at h; cases h
        | refused r => rw [he] at h; cases h

/-- A step that ended in a fault ends as it is; one that did not has its tick and uses up its input. -/
theorem State.endStep_of_halted {s : State} (h : s.halted = true) : s.endStep = s := by
  simp [State.endStep, h]

theorem State.endStep_of_running {s : State} (h : s.halted = false) :
    s.endStep = s.tickTimers.nextInput := by
  simp [State.endStep, h]

end Sys2Proof.Machine
end

