-- ==== Sys2Proof/Tests/Slice0.lean ====
section
/-! SUPPORT. The model's own tests. Expected values come from the vectors of 95_test_vectors.md (named by
their id) and from the opcode map of 30_encoding.md R75; then, for every statement of the obligations
that has hypotheses, states and operands that meet them. -/

namespace Sys2Proof.Tests

open Sys2Proof Sys2Proof.Machine

/-! ### Helpers: one step on a small state -/

/-- No key, random byte 0, no tick: the inputs of a vector that names none. -/
def quiet : StepInput := ⟨none, 0, false⟩

/-- A tick and nothing else. -/
def ticking : StepInput := ⟨none, 0, true⟩

/-- A key and nothing else. -/
def pressing (k : Key) : StepInput := ⟨some k, 0, false⟩

/-- The construction state with a word at pc, and quiet inputs. -/
def load (w : Nat) : State := (State.reset.withFetchWord 16 w).withInput quiet

/-- The same with pc moved first. -/
def loadAt (pc : Word) (w : Nat) : State :=
  ({ State.reset with pc := pc }.withFetchWord 16 w).withInput quiet

/-- The state after one step, or the state itself when there is none. -/
def after (s : State) : State :=
  match step s with
  | .next t => t
  | _ => s

/-- The same state in the other SUBN mode. -/
def inReference (s : State) : State := { s with subnFlag := .reference }

/-- The state with another stack pointer. -/
def withSp (s : State) (n : Fin 17) : State := { s with sp := n }

/-- The state with one cell flipped. -/
def flipCell (s : State) (c : Fin 64) (r : Fin 32) : State := { s with FB := s.FB.flip c r }

/-- The state with other timers. -/
def withTimers (s : State) (dt st : Byte) : State := { s with DT := dt, ST := st }

/-- HALT(c, w, p, a) of 95_test_vectors.md, with pc and the whole rest kept. -/
def Halts (s : State) (c : Nat) (w p : Word) (a : Nat) : Prop :=
  (after s).halted = true ∧ (after s).fault.cause.code = c ∧ (after s).fault.word = w ∧
  (after s).fault.pc = p ∧ (after s).fault.addr = a ∧
  after s = { s with halted := (after s).halted, fault := (after s).fault }

/-! ### Checks on what comes from outside: an ill-formed term for each is refused -/

theorem test_wf_words :
    supportedWord 0x00E0 = true ∧ supportedWord 0x5120 = true ∧ supportedWord 0x800E = true ∧
    supportedWord 0x9120 = true ∧ supportedWord 0xE0A1 = true ∧ supportedWord 0xF065 = true := by
  decide

theorem test_wf_ill_formed_words :
    supportedWord 0x0000 = false ∧ supportedWord 0x00FF = false ∧ supportedWord 0x0123 = false ∧
    supportedWord 0x5123 = false ∧ supportedWord 0x8008 = false ∧ supportedWord 0x800F = false ∧
    supportedWord 0x9001 = false ∧ supportedWord 0xE09F = false ∧ supportedWord 0xF0FF = false := by
  decide

theorem test_wf_image_fits : imageFits (List.replicate 4096 0xAA) = true :=
  (imageFits_iff _).2 (by rw [List.length_replicate])

theorem test_wf_ill_formed_image : imageFits (List.replicate 4097 0xAA) = false := by
  rw [Bool.eq_false_iff, ne_eq, imageFits_iff, List.length_replicate]; omega

theorem test_wf_ill_formed_input :
    StepInput.inRange .narrow ⟨none, 255, false⟩ = false ∧
    StepInput.inRange .narrow ⟨none, 254, false⟩ = true ∧
    StepInput.inRange .full ⟨none, 255, false⟩ = true := by decide

/-! ### Decoding: words written out from the opcode map R75, one for every constructor -/

theorem test_decode_bitwise :
    decode 0b0000000011100000 = .ok .cls ∧ decode 0b0001001000110100 = .ok (.jp 0x234) ∧
    decode 0b1000001101011110 = .ok (.shl 3 5) ∧ decode 0b1010001011110000 = .ok (.ldI 0x2F0) ∧
    decode 0b1101000000010101 = .ok (.drw 0 1 5) ∧ decode 0b1110000110011110 = .ok (.skp 1) ∧
    decode 0b1111001001100101 = .ok (.ldVxMem 2) := ⟨rfl, rfl, rfl, rfl, rfl, rfl, rfl⟩

theorem test_decode_control_flow :
    decode 0x00EE = .ok .ret ∧ decode 0x1FFF = .ok (.jp 0xFFF) ∧ decode 0x2300 = .ok (.call 0x300) ∧
    decode 0x3310 = .ok (.seImm 3 0x10) ∧ decode 0x4311 = .ok (.sneImm 3 0x11) ∧
    decode 0x5120 = .ok (.seReg 1 2) ∧ decode 0x9120 = .ok (.sneReg 1 2) ∧
    decode 0xB300 = .ok (.jpV0 0x300) := ⟨rfl, rfl, rfl, rfl, rfl, rfl, rfl, rfl⟩

theorem test_decode_alu_immediate :
    decode 0x6A42 = .ok (.ldImm 10 0x42) ∧ decode 0x72FF = .ok (.addImm 2 0xFF) ∧
    decode 0xC00F = .ok (.rnd 0 0x0F) := ⟨rfl, rfl, rfl⟩

theorem test_decode_alu_register :
    decode 0x8150 = .ok (.ldReg 1 5) ∧ decode 0x8231 = .ok (.or 2 3) ∧
    decode 0x8232 = .ok (.and 2 3) ∧ decode 0x8233 = .ok (.xor 2 3) ∧
    decode 0x80F4 = .ok (.addReg 0 15) ∧ decode 0x8F15 = .ok (.sub 15 1) ∧
    decode 0x8356 = .ok (.shr 3 5) ∧ decode 0x8017 = .ok (.subn 0 1) ∧
    decode 0x8F0E = .ok (.shl 15 0) := ⟨rfl, rfl, rfl, rfl, rfl, rfl, rfl, rfl, rfl⟩

theorem test_decode_index_memory :
    decode 0xA2F0 = .ok (.ldI 0x2F0) ∧ decode 0xF21E = .ok (.addI 2) ∧ decode 0xFA29 = .ok (.ldF 10) ∧
    decode 0xFA33 = .ok (.ldB 10) ∧ decode 0xF355 = .ok (.ldMemVx 3) ∧
    decode 0xFF65 = .ok (.ldVxMem 15) := ⟨rfl, rfl, rfl, rfl, rfl, rfl⟩

theorem test_decode_display_input :
    decode 0xDF13 = .ok (.drw 15 1 3) ∧ decode 0xE19E = .ok (.skp 1) ∧ decode 0xE1A1 = .ok (.sknp 1) ∧
    decode 0xF307 = .ok (.ldVxDt 3) ∧ decode 0xF20A = .ok (.ldVxK 2) ∧
    decode 0xF315 = .ok (.ldDtVx 3) ∧ decode 0xF318 = .ok (.ldStVx 3) := ⟨rfl, rfl, rfl, rfl, rfl, rfl, rfl⟩

theorem test_decode_rejects :
    decode 0x0123 = .error (.unsupportedOpcode 0x0123) ∧
    decode 0x5121 = .error (.unsupportedOpcode 0x5121) ∧
    decode 0x8008 = .error (.unsupportedOpcode 0x8008) ∧
    decode 0xFFFF = .error (.unsupportedOpcode 0xFFFF) := ⟨rfl, rfl, rfl, rfl⟩

theorem test_decode_bytes :
    decodeBytes [0x12, 0x34, 0x56] = .ok (.jp 0x234, [0x56]) ∧ decodeBytes [0x12] = .error .truncated ∧
    decodeTableWord 16 0x8356 = some (.shr 3 5) ∧ decodeTableWord 16 0x0000 = none :=
  ⟨rfl, rfl, rfl, rfl⟩

theorem test_cause_codes :
    FaultCause.code .noFault = 0 ∧ FaultCause.code .unsupportedOpcode = 1 ∧
    FaultCause.code .stackOverflow = 2 ∧ FaultCause.code .stackUnderflow = 3 ∧
    FaultCause.code .fetchOutOfRange = 4 ∧ FaultCause.code .dataOutOfRange = 5 := by decide

/-! ### Fetch, faults of the step, timers (L2.1, L2.2) -/

theorem test_step_fetch_at_top : (after (loadAt 0xFFE 0x00E0)).pc = 0x1000 := by decide  -- CY-2

theorem test_step_fetch_fault : Halts (loadAt 0xFFF 0) 4 0 0xFFF 0x1000 := by
  unfold Halts; decide  -- CY-3

theorem test_step_fetch_fault_high : Halts { load 0 with pc := 0x10FE } 4 0 0x10FE 0x10FE := by
  unfold Halts; decide  -- CY-4

theorem test_step_odd_pc : (after (loadAt 0x201 0x6007)).v 0 = 7 ∧ (after (loadAt 0x201 0x6007)).pc = 0x203 := by
  decide  -- CY-5

theorem test_step_tick :
    (after ((withTimers (load 0x6000) 5 1).withInput ticking)).DT = 4 ∧
    (after ((withTimers (load 0x6000) 5 1).withInput ticking)).ST = 0 ∧
    toneEvent (withTimers (load 0x6000) 5 1)
      (after ((withTimers (load 0x6000) 5 1).withInput ticking)) = some .stopTone := by decide  -- CY-6

theorem test_step_tick_discarded : Halts ((withTimers (load 0x0000) 5 0).withInput ticking) 1 0 0x200 0 := by
  unfold Halts; decide  -- CY-9

theorem test_step_unsupported : Halts (load 0x5123) 1 0x5123 0x200 0 := by
  unfold Halts; decide  -- L1-9

/-! ### Control flow (L2.3) -/

theorem test_jp : (after (load 0x1234)).pc = 0x234 := by decide  -- CF-1

theorem test_jp_parks : (after (load 0x1200)).pc = 0x200 ∧ (load 0x1200).parked = true := by decide  -- CF-2

theorem test_call :
    (after (load 0x2300)).pc = 0x300 ∧ (after (load 0x2300)).sp = 1 ∧
    (after (load 0x2300)).stack[0] = 0x202 := by decide  -- CF-3

theorem test_call_overflow : Halts (withSp (load 0x2300) 16) 2 0x2300 0x200 0 := by
  unfold Halts; decide  -- CF-4

theorem test_ret_underflow : Halts (load 0x00EE) 3 0x00EE 0x200 0 := by unfold Halts; decide  -- CF-5

theorem test_ret :
    (after { load 0x00EE with sp := 1, stack := (load 0).stack.set 0 0x202 }).pc = 0x202 ∧
    (after { load 0x00EE with sp := 1, stack := (load 0).stack.set 0 0x202 }).sp = 0 := by decide  -- CF-6

theorem test_se_imm :
    (after ((load 0x3310).setV 3 0x10)).pc = 0x204 ∧ (after ((load 0x3311).setV 3 0x10)).pc = 0x202 := by
  decide  -- CF-8, CF-9

theorem test_sne_imm :
    (after ((load 0x4311).setV 3 0x10)).pc = 0x204 ∧ (after ((load 0x4310).setV 3 0x10)).pc = 0x202 := by
  decide  -- CF-10, CF-11

theorem test_se_reg :
    (after (((load 0x5120).setV 1 7).setV 2 7)).pc = 0x204 ∧
    (after (((load 0x5120).setV 1 7).setV 2 8)).pc = 0x202 := by decide  -- CF-12

theorem test_sne_reg :
    (after (((load 0x9120).setV 1 7).setV 2 8)).pc = 0x204 ∧
    (after ((load 0x9110).setV 1 7)).pc = 0x202 := by decide  -- CF-14, CF-15

theorem test_jp_v0 :
    (after ((load 0xB300).setV 0 4)).pc = 0x304 ∧ (after ((load 0xBFFF).setV 0 0xFF)).pc = 0x10FE := by
  decide  -- CF-17, CF-18

/-! ### Arithmetic and logic (L2.4) -/

theorem test_ld_imm : (after (load 0x6A42)).v 10 = 0x42 ∧ (after (load 0x6A42)).pc = 0x202 := by decide  -- AL-1

theorem test_add_imm_wraps :
    (after (((load 0x7220).setV 2 0xF0).setV 15 0x77)).v 2 = 0x10 ∧
    (after (((load 0x7220).setV 2 0xF0).setV 15 0x77)).v 15 = 0x77 := by decide  -- AL-2

theorem test_ld_reg : (after ((load 0x8150).setV 5 0x33)).v 1 = 0x33 := by decide  -- AL-4

theorem test_or_keeps_vf :
    (after ((((load 0x8011).setV 0 0x0F).setV 1 0xF0).setV 15 0x55)).v 0 = 0xFF ∧
    (after ((((load 0x8011).setV 0 0x0F).setV 1 0xF0).setV 15 0x55)).v 15 = 0x55 := by decide  -- AL-5

theorem test_and : (after (((load 0x8012).setV 0 0x3C).setV 1 0x0F)).v 0 = 0x0C := by decide  -- AL-6

theorem test_xor : (after (((load 0x8013).setV 0 0x3C).setV 1 0x0F)).v 0 = 0x33 := by decide  -- AL-7

theorem test_add_reg_carry :
    (after (((load 0x8014).setV 0 0xFF).setV 1 0x01)).v 0 = 0 ∧
    (after (((load 0x8014).setV 0 0xFF).setV 1 0x01)).v 15 = 1 := by decide  -- L1-4

theorem test_add_reg_vf :
    (after (((load 0x8F04).setV 15 0x10).setV 0 0x20)).v 15 = 0x30 ∧
    (after (((load 0x80F4).setV 0 0x10).setV 15 0xF5)).v 0 = 0x05 := by decide  -- AL-12, AL-13

theorem test_sub_strict :
    (after (((load 0x8015).setV 0 5).setV 1 5)).v 15 = 0 ∧
    (after (((load 0x8015).setV 0 5).setV 1 3)).v 15 = 1 := by decide  -- AL-14, AL-15

theorem test_sub_vf :
    (after (((load 0x8F15).setV 15 5).setV 1 3)).v 15 = 0x02 ∧
    (after (((load 0x8015).setV 0 1).setV 1 2)).v 0 = 0xFF := by decide  -- AL-17, L1-5

theorem test_shr_ignores_vy :
    (after (((load 0x8356).setV 3 0x04).setV 5 0xFF)).v 3 = 0x02 ∧
    (after (((load 0x8356).setV 3 0x04).setV 5 0xFF)).v 15 = 0 := by decide  -- AL-21

theorem test_shr_flag :
    (after ((load 0x8306).setV 3 0x05)).v 15 = 1 ∧ (after ((load 0x8F06).setV 15 0x06)).v 15 = 3 := by
  decide  -- AL-18, AL-20

theorem test_shl :
    (after ((load 0x830E).setV 3 0x81)).v 3 = 0x02 ∧ (after ((load 0x830E).setV 3 0x81)).v 15 = 1 := by
  decide  -- AL-22

theorem test_shl_vf : (after ((load 0x8F0E).setV 15 0x81)).v 15 = 0x02 := by decide  -- AL-24

theorem test_subn_canonical :
    (after ((load 0x8017).setV 1 5)).v 0 = 5 ∧ (after ((load 0x8017).setV 1 5)).v 15 = 1 ∧
    (after (((load 0x8017).setV 0 5).setV 1 5)).v 15 = 0 := by decide  -- AL-27, AL-29

theorem test_subn_reference :
    (after (inReference ((load 0x8017).setV 1 5))).v 0 = 5 ∧
    (after (inReference ((load 0x8017).setV 1 5))).v 15 = 0 ∧
    (after (inReference (((load 0x8017).setV 0 5).setV 1 5))).v 15 = 1 := by decide  -- AL-28, AL-30

theorem test_rnd_masks :
    (after ((load 0xC00F).withInput ⟨none, 0xA5, false⟩)).v 0 = 0x05 ∧
    (after ((load 0xCF0F).withInput ⟨none, 0x3C, false⟩)).v 15 = 0x0C := by decide  -- AL-33, AL-35

/-! ### Index register and memory (L2.5) -/

theorem test_ld_i : (after (load 0xA2F0)).I = 0x2F0 := by decide  -- IM-1

theorem test_add_i :
    (after ({ load 0xF01E with I := 0xFFF }.setV 0 1)).I = 0x1000 ∧
    (after ({ load 0xF01E with I := 0xFFFF }.setV 0 1)).I = 0 := by decide  -- IM-3, IM-4

theorem test_ld_f :
    (after ((load 0xFA29).setV 10 0x0A)).I = 0x032 ∧ (after ((load 0xF029).setV 0 0xFF)).I = 0x4FB := by
  decide  -- IM-5, IM-7

theorem test_ld_b :
    (after ({ load 0xF033 with I := 0x300 }.setV 0 255)).loadBytes 0x300 3 = [2, 5, 5] ∧
    (after ({ load 0xF033 with I := 0xFFD }.setV 0 123)).loadBytes 0xFFD 3 = [1, 2, 3] := by
  decide  -- IM-9, IM-11

theorem test_ld_b_fault : Halts ({ load 0xF033 with I := 0xFFE }.setV 0 123) 5 0xF033 0x200 0x1000 := by
  unfold Halts; decide  -- IM-12

theorem test_ld_mem_vx :
    (after ((({ load 0xF255 with I := 0x300 }.setV 0 1).setV 1 2).setV 2 3)).loadBytes 0x300 4
      = [1, 2, 3, 0] ∧
    (after ({ load 0xF055 with I := 0x300 }.setV 0 9)).I = 0x301 := by decide  -- IM-14, IM-15

theorem test_ld_mem_vx_fault : Halts { load 0xFF55 with I := 0xFF1 } 5 0xFF55 0x200 0x1000 := by
  unfold Halts; decide  -- IM-17

theorem test_ld_vx_mem :
    (after ({ load 0xF165 with I := 0x300 }.storeBytes 0x300 [0xAA, 0xBB])).v 0 = 0xAA ∧
    (after ({ load 0xF165 with I := 0x300 }.storeBytes 0x300 [0xAA, 0xBB])).v 1 = 0xBB ∧
    (after ({ load 0xF165 with I := 0x300 }.storeBytes 0x300 [0xAA, 0xBB])).I = 0x302 := by
  decide  -- IM-18

theorem test_ld_vx_mem_fault : Halts { load 0xF165 with I := 0xFFF } 5 0xF165 0x200 0x1000 := by
  unfold Halts; decide  -- IM-20

/-! ### Display (L2.6) -/

theorem test_cls :
    (after (flipCell (flipCell (load 0x00E0) 5 5) 63 31)).FB = FrameBuffer.blank := by decide  -- DI-1

theorem test_drw_wraps :
    (after (((({ load 0xD012 with I := 0x300 }.storeBytes 0x300 [0xC0, 0x80]).setV 0 62).setV 1 31))).FB
      = ((FrameBuffer.blank.flip 62 31).flip 63 31).flip 62 0 := by decide  -- DI-4

theorem test_drw_collision :
    (after (flipCell ({ load 0xD011 with I := 0x300 }.storeBytes 0x300 [0xC0]) 1 0)).FB
      = FrameBuffer.blank.flip 0 0 ∧
    (after (flipCell ({ load 0xD011 with I := 0x300 }.storeBytes 0x300 [0xC0]) 1 0)).v 15 = 1 := by
  decide  -- DI-9

/-! ### Key input and timers (L2.7) -/

theorem test_skp :
    (after (((load 0xE19E).setV 1 5).withInput (pressing 5))).pc = 0x204 ∧
    (after ((load 0xE19E).setV 1 5)).pc = 0x202 ∧
    (after (((load 0xE19E).setV 1 0x15).withInput (pressing 5))).pc = 0x202 := by decide  -- KT-1, KT-2, KT-4

theorem test_sknp :
    (after (((load 0xE1A1).setV 1 5).withInput (pressing 5))).pc = 0x202 ∧
    (after ((load 0xE1A1).setV 1 5)).pc = 0x204 ∧
    (after (((load 0xE1A1).setV 1 0x15).withInput (pressing 5))).pc = 0x204 := by decide  -- KT-5, KT-6, KT-7

theorem test_ld_vx_dt :
    (after ((withTimers (load 0xF307) 0x3C 0).withInput ticking)).v 3 = 0x3C ∧
    (after ((withTimers (load 0xF307) 0x3C 0).withInput ticking)).DT = 0x3B := by decide  -- KT-9

theorem test_ld_dt_vx :
    (after (((load 0xF315).setV 3 0x3C).withInput ticking)).DT = 0x3B ∧
    (after ((withTimers (load 0xF315) 9 0).withInput ticking)).DT = 0 := by decide  -- KT-11, KT-12

theorem test_ld_st_vx :
    toneEvent (load 0xF318) (after ((load 0xF318).setV 3 2)) = some .startTone ∧
    toneEvent (load 0xF318) (after (((load 0xF318).setV 3 1).withInput ticking)) = none := by
  decide  -- KT-13, KT-14

theorem test_ld_vx_k_waits :
    (after ((withTimers (loadAt 0x300 0xF20A) 5 0).withInput ticking)).pc = 0x300 ∧
    (after ((withTimers (loadAt 0x300 0xF20A) 5 0).withInput ticking)).DT = 4 := by decide  -- KT-15

theorem test_ld_vx_k :
    (after ((loadAt 0x300 0xF20A).withInput (pressing 7))).v 2 = 7 ∧
    (after ((loadAt 0x300 0xF20A).withInput (pressing 7))).pc = 0x302 := by decide  -- KT-16

/-! ### Construction (L2.8) -/

theorem test_default_constructor : constructDefault defaultFont .canonical = State.reset := by
  decide +kernel  -- RS-1

/-- A font of equal bytes is not the default one: the constructor writes the font it is given. -/
theorem test_other_font :
    (constructDefault (Vector.replicate 80 0x55) .reference).memRead 0 = 0x55 ∧
    (constructDefault (Vector.replicate 80 0x55) .reference).memRead 80 = 0 := by
  simp only [constructDefault]
  rw [memRead_constructed _ _ _ (by decide), memRead_constructed _ _ _ (by decide)]
  decide

/-! ### Witnesses: for every statement with hypotheses, states and operands that meet them

A clause over a range is met at the ends of the range. -/

/-- The next step of this state runs this instruction: what `Runs` asks, for a closed state. -/
theorem runs_of {s : State} {i : Instr} (h : s.halted = false) (hp : s.pc.toNat ≤ 4094)
    (hd : decode s.wordAtPc = .ok i) : Runs s i := ⟨h, hp, hd⟩

theorem witness_encode_of_decode : decode 0x8356 = .ok (.shr 3 5) ∧ decode 0xDFFF = .ok (.drw 15 15 15) :=
  ⟨rfl, rfl⟩

theorem witness_decoder_total_both_sides :
    (supportedWord 0x00E0 = true ∧ supportedWord 0x00E1 = false) := by decide

theorem witness_decode_picks_row :
    decode 0x8356 = .ok (.shr 3 5) ∧ (⟨"SHR", 0x8006, 0xF00F⟩ : OpcodeRow) ∈ opcodeMap ∧
    (⟨"SHR", 0x8006, 0xF00F⟩ : OpcodeRow).selects 0x8356 = true := ⟨rfl, by decide, by decide⟩

theorem witness_runs : Runs (load 0x00E0) .cls := runs_of rfl (by decide) rfl

theorem witness_runs_at_top : Runs (loadAt 0xFFE 0x00E0) .cls := runs_of rfl (by decide) rfl

theorem witness_step_ends_with_tick :
    ∃ u, Runs ((withTimers (load 0x6000) 5 0).withInput ticking) (.ldImm 0 0) ∧
      exec (.ldImm 0 0) ((withTimers (load 0x6000) 5 0).withInput ticking) = .next u ∧
      u.halted = false ∧ ((withTimers (load 0x6000) 5 0).withInput ticking).tick = true :=
  ⟨_, runs_of rfl (by decide) rfl, rfl, rfl, rfl⟩

theorem witness_step_ends_without_tick :
    ∃ u, Runs (withTimers (load 0x6000) 5 0) (.ldImm 0 0) ∧
      exec (.ldImm 0 0) (withTimers (load 0x6000) 5 0) = .next u ∧
      u.halted = false ∧ (withTimers (load 0x6000) 5 0).tick = false :=
  ⟨_, runs_of rfl (by decide) rfl, rfl, rfl, rfl⟩

theorem witness_step_ends_on_free_draw :
    ∃ u, Runs (load 0x00E0).nextInput .cls ∧ exec .cls (load 0x00E0).nextInput = .next u ∧
      u.halted = false ∧ (load 0x00E0).nextInput.inputs = [] := ⟨_, runs_of rfl (by decide) rfl, rfl, rfl, rfl⟩

theorem witness_halted : (after (load 0x5123)).halted = true := by decide

theorem witness_step_answers : (load 0x5123).halted = false ∧ (after (load 0x5123)).halted = true := by
  decide

theorem witness_fetch_out_of_range :
    (loadAt 0xFFF 0).halted = false ∧ 4094 < (loadAt 0xFFF 0).pc.toNat ∧
    ¬ 4095 < (loadAt 0xFFF 0).pc.toNat ∧ 4095 < (after (loadAt 0xFFE 0x00E0)).pc.toNat ∧
    (after (loadAt 0xFFE 0x00E0)).halted = false := by decide

theorem witness_unsupported_opcode :
    (loadAt 0xFFE 0x5123).halted = false ∧ (loadAt 0xFFE 0x5123).pc.toNat ≤ 4094 ∧
    supportedWord (loadAt 0xFFE 0x5123).wordAtPc = false := by decide

/-- Steps that end halted, one for each way of R230: fetch, decode, stack, range with I in and beyond
the space. -/
theorem witness_faults_are_precise :
    (∃ t, step (loadAt 0xFFF 0) = .next t ∧ t.halted = true) ∧
    (∃ t, step (load 0x5123) = .next t ∧ t.halted = true) ∧
    (∃ t, step (load 0x00EE) = .next t ∧ t.halted = true) ∧
    (∃ t, step (withSp (load 0x2300) 16) = .next t ∧ t.halted = true) ∧
    (∃ t, step { load 0xF033 with I := 0xFFE } = .next t ∧ t.halted = true) ∧
    (∃ t, step { load 0xF033 with I := 0x1000 } = .next t ∧ t.halted = true) :=
  ⟨⟨_, rfl, rfl⟩, ⟨_, rfl, rfl⟩, ⟨_, rfl, rfl⟩, ⟨_, rfl, rfl⟩, ⟨_, rfl, rfl⟩, ⟨_, rfl, rfl⟩⟩

/-- Steps that do and do not halt, with an instruction's own check as the reason. -/
theorem witness_halts_exactly :
    (∃ t, step (load 0x00EE) = .next t ∧ Runs (load 0x00EE) .ret ∧ trapsIn .ret (load 0x00EE)) ∧
    (∃ t, step (load 0x00E0) = .next t ∧ t.halted = false) :=
  ⟨⟨_, rfl, runs_of rfl (by decide) rfl, rfl⟩, ⟨_, rfl, rfl⟩⟩

theorem witness_ret :
    (load 0x00EE).sp.val = 0 ∧ (withSp (load 0x00EE) 1).sp.val = (0 : Fin 16).val + 1 ∧
    (withSp (load 0x00EE) 16).sp.val = (15 : Fin 16).val + 1 := by decide

theorem witness_call :
    (withSp (load 0x2300) 16).sp.val = 16 ∧ (load 0x2300).sp.val = (0 : Fin 16).val ∧
    (withSp (load 0x2300) 15).sp.val = (15 : Fin 16).val := by decide

theorem witness_call_then_ret :
    (load 0x2300).sp.val < 16 ∧ (withSp (load 0x2300) 15).sp.val < 16 ∧
    (15 : Fin 16).val ≠ (load 0x2300).sp.val ∧ (0 : Fin 16).val ≠ (withSp (load 0x2300) 15).sp.val := by
  decide

/-- The flag clauses away from VF, and the other case. -/
theorem witness_flag_register : (0 : Reg) ≠ vf ∧ (14 : Reg) ≠ vf ∧ ¬ (15 : Reg) ≠ vf := by decide

theorem witness_subn_modes :
    (0 : Reg) ≠ vf ∧ (load 0x8017).subnFlag = .canonical ∧
    (inReference (load 0x8017)).subnFlag = .reference := by decide

theorem witness_subn_modes_differ : (0 : Reg) ≠ 1 ∧ (0 : Reg) ≠ vf ∧ (1 : Reg) ≠ vf := by decide

theorem witness_bcd :
    { load 0xF033 with I := 0xFFD }.mem.wf ∧ { load 0xF033 with I := 0xFFD }.I.toNat + 2 ≤ 4095 ∧
    4095 < { load 0xF033 with I := 0xFFE }.I.toNat + 2 ∧
    4095 < { load 0xF033 with I := 0x1000 }.I.toNat := by decide

theorem witness_block_store :
    { load 0xFF55 with I := 0xFF0 }.mem.wf ∧
    { load 0xFF55 with I := 0xFF0 }.I.toNat + (15 : Reg).val ≤ 4095 ∧
    4095 < { load 0xFF55 with I := 0xFF1 }.I.toNat + (15 : Reg).val ∧
    4095 < { load 0xF055 with I := 0x1000 }.I.toNat + (0 : Reg).val := by decide

theorem witness_block_load :
    { load 0xF065 with I := 0xFFF }.I.toNat + (0 : Reg).val ≤ 4095 ∧
    4095 < { load 0xF165 with I := 0xFFF }.I.toNat + (1 : Reg).val ∧
    4095 < { load 0xF065 with I := 0xFFFF }.I.toNat + (0 : Reg).val := by decide

/-- What an instruction answers, where that is a next state. -/
def result (i : Instr) (s : State) : State :=
  match exec i s with
  | .next t => t
  | _ => s

/-- Whether an instruction answers a next state. -/
def completes (i : Instr) (s : State) : Bool :=
  match exec i s with
  | .next _ => true
  | _ => false

theorem exec_of_completes {i : Instr} {s : State} (h : completes i s = true) :
    exec i s = .next (result i s) := by
  unfold completes at h
  unfold result
  cases he : exec i s <;> simp_all

/-- The store of sixteen registers, at an address. -/
def storing (a : Word) : State := { load 0xFF55 with I := a }

/-- The state after the store with I set back: its memory is the stored one. -/
theorem witness_store_load_round_trip :
    ∃ t, ∃ u : State, (storing 0xFF0).mem.wf ∧ (storing 0xFF0).I.toNat + (15 : Reg).val ≤ 4095 ∧
      exec (.ldMemVx 15) (storing 0xFF0) = .next t ∧ u.I = (storing 0xFF0).I ∧
      ∀ a, u.memRead a = t.memRead a :=
  ⟨_, (result (.ldMemVx 15) (storing 0xFF0)).setI 0xFF0, by decide, by decide,
    exec_of_completes (by decide), by rw [State.setI_I]; rfl, fun _ => State.memRead_congr (State.setI_mem _ _) _⟩

/-- A jump to the first of the stored bytes, and to the last two. -/
theorem witness_stored_word_is_fetched :
    (∃ t, ∃ u : State, (storing 0x300).mem.wf ∧ (storing 0x300).I.toNat + (15 : Reg).val ≤ 4095 ∧
      (0 : Reg) < 15 ∧ exec (.ldMemVx 15) (storing 0x300) = .next t ∧
      (∀ a, u.memRead a = t.memRead a) ∧ u.pc.toNat = (storing 0x300).I.toNat + (0 : Reg).val) ∧
    (∃ t, ∃ u : State, (storing 0xFF0).mem.wf ∧ (storing 0xFF0).I.toNat + (15 : Reg).val ≤ 4095 ∧
      (14 : Reg) < 15 ∧ exec (.ldMemVx 15) (storing 0xFF0) = .next t ∧
      (∀ a, u.memRead a = t.memRead a) ∧ u.pc.toNat = (storing 0xFF0).I.toNat + (14 : Reg).val) :=
  ⟨⟨_, (result (.ldMemVx 15) (storing 0x300)).jump 0x300, by decide, by decide, by decide,
      exec_of_completes (by decide), fun _ => State.memRead_congr (State.jump_mem _ _) _, by rw [State.jump_pc]; rfl⟩,
   ⟨_, (result (.ldMemVx 15) (storing 0xFF0)).jump 0xFFE, by decide, by decide, by decide,
      exec_of_completes (by decide), fun _ => State.memRead_congr (State.jump_mem _ _) _, by rw [State.jump_pc]; rfl⟩⟩

theorem witness_drw :
    ((0 : Nibble).toNat = 0 ∨ { load 0xD010 with I := 0xFFFF }.I.toNat + (0 : Nibble).toNat - 1 ≤ 4095) ∧
    { load 0xD013 with I := 0xFFD }.I.toNat + (3 : Nibble).toNat - 1 ≤ 4095 ∧
    0 < (3 : Nibble).toNat ∧ 4095 < { load 0xD013 with I := 0xFFE }.I.toNat + (3 : Nibble).toNat - 1 ∧
    4095 < { load 0xD011 with I := 0x1000 }.I.toNat + (1 : Nibble).toNat - 1 := by decide

/-- Glyph 0 has a set bit at its first cell: with that cell on a draw collides, with all off it does not. -/
theorem witness_drw_collision :
    (∃ c r, inSprite (flipCell (load 0xD015) 0 0) 0 1 5 c r ∧ (flipCell (load 0xD015) 0 0).FB.get c r = true) ∧
    ¬ ∃ c r, inSprite (load 0xD015) 0 1 5 c r ∧ (load 0xD015).FB.get c r = true := by
  refine ⟨⟨0, 0, ⟨0, 0, by decide, by decide, by decide, by decide, by decide⟩, by decide⟩, ?_⟩
  rintro ⟨c, r, _, h⟩
  have off : (load 0xD015).FB = FrameBuffer.blank := rfl
  rw [off] at h
  simp [FrameBuffer.get, FrameBuffer.blank] at h

theorem witness_drw_twice :
    (0 : Reg) ≠ vf ∧ (1 : Reg) ≠ vf ∧
    ((5 : Nibble).toNat = 0 ∨ (load 0xD015).I.toNat + (5 : Nibble).toNat - 1 ≤ 4095) := by decide

theorem witness_key_skips :
    (∃ k, (((load 0xE19E).setV 1 5).withInput (pressing 5)).input.key = some k ∧
      k.val = ((((load 0xE19E).setV 1 5).withInput (pressing 5)).v 1).toNat) ∧
    (∀ k, ((load 0xE19E).setV 1 5).input.key = some k → k.val ≠ (((load 0xE19E).setV 1 5).v 1).toNat) ∧
    (∀ k, (((load 0xE19E).setV 1 0x15).withInput (pressing 5)).input.key = some k →
      k.val ≠ ((((load 0xE19E).setV 1 0x15).withInput (pressing 5)).v 1).toNat) := by decide

theorem witness_key_wait :
    ((load 0xF20A).withInput (pressing 15)).input.key = some 15 ∧ (load 0xF20A).input.key = none := by
  decide

theorem witness_sp_changes :
    (∃ t, step (load 0x2300) = .next t ∧ t.sp ≠ (load 0x2300).sp ∧ t.stack ≠ (load 0x2300).stack) ∧
    (∃ t, step (withSp (load 0x00EE) 1) = .next t ∧ t.sp ≠ (withSp (load 0x00EE) 1).sp) :=
  ⟨⟨_, rfl, by decide, by decide⟩, ⟨_, rfl, by decide⟩⟩

theorem witness_display_changes :
    (∃ t, step (flipCell (load 0x00E0) 5 5) = .next t ∧ t.FB ≠ (flipCell (load 0x00E0) 5 5).FB) ∧
    (∃ t, step (load 0xD015) = .next t ∧ t.FB ≠ (load 0xD015).FB) :=
  ⟨⟨_, rfl, by decide⟩, ⟨_, rfl, by decide⟩⟩

theorem witness_index_changes :
    (∃ t, step (load 0xA2F0) = .next t ∧ t.I ≠ (load 0xA2F0).I) ∧
    (∃ t, step (load 0xF065) = .next t ∧ t.I ≠ (load 0xF065).I) :=
  ⟨⟨_, rfl, by decide⟩, ⟨_, rfl, by decide⟩⟩

theorem witness_memory_changes :
    (∃ t, step { load 0xF055 with I := 0 } = .next t ∧ t.memRead 0 ≠ State.memRead { load 0xF055 with I := 0 } 0) ∧
    (∃ t, step ({ load 0xF033 with I := 0x300 }.setV 0 1) = .next t ∧
      t.memRead 0x302 ≠ State.memRead ({ load 0xF033 with I := 0x300 }.setV 0 1) 0x302) :=
  ⟨⟨_, rfl, by decide⟩, ⟨_, rfl, by decide⟩⟩

theorem witness_register_changes :
    (∃ t, step (load 0x6A42) = .next t ∧ t.v 10 ≠ (load 0x6A42).v 10) ∧
    (∃ t, step ((load 0x8306).setV 3 5) = .next t ∧ t.v 15 ≠ ((load 0x8306).setV 3 5).v 15) :=
  ⟨⟨_, rfl, by decide⟩, ⟨_, rfl, by decide⟩⟩

theorem witness_timers_change :
    (∃ t, step ((load 0xF315).setV 3 9) = .next t ∧ t.DT ≠ ((load 0xF315).setV 3 9).DT) ∧
    (∃ t, step ((withTimers (load 0x6000) 0 1).withInput ticking) = .next t ∧
      t.ST ≠ ((withTimers (load 0x6000) 0 1).withInput ticking).ST) :=
  ⟨⟨_, rfl, by decide⟩, ⟨_, rfl, by decide⟩⟩

theorem witness_parameter_kept : ∃ t, step (inReference (load 0x8017)) = .next t := ⟨_, rfl⟩

/-- ADD reads no input: two inputs that differ everywhere agree where it reads. -/
theorem witness_inputs_read :
    (readsKey (.addReg 0 1) → (⟨none, 0, false⟩ : StepInput).key = (⟨some 3, 7, true⟩ : StepInput).key) ∧
    (readsRnd (.addReg 0 1) → (⟨none, 0, false⟩ : StepInput).rnd = (⟨some 3, 7, true⟩ : StepInput).rnd) ∧
    (readsKey (.skp 1) → (⟨some 3, 0, false⟩ : StepInput).key = (⟨some 3, 7, true⟩ : StepInput).key) ∧
    (∃ t, exec (.addReg 0 1) ((load 0x8014).withInput ⟨none, 0, false⟩) = .next t) := by
  refine ⟨?_, ?_, fun _ => rfl, _, rfl⟩
  · rintro ⟨x, h | h | h⟩ <;> cases h
  · rintro ⟨x, nn, h⟩; cases h

theorem witness_step_keeps_inv : Inv (load 0x2300) ∧ ∃ t, step (load 0x2300) = .next t :=
  ⟨⟨by decide, by decide, by decide, fun _ => rfl, by decide⟩, _, rfl⟩

theorem witness_inv_of_a_halted_state : Inv (after (load 0x5123)) :=
  ⟨by decide, by decide, by decide, by decide, by decide⟩

/-- Two ways to the same bytes. -/
theorem witness_canonical_memory :
    Memory.wf (Memory.write (Memory.write [] 0x300 1) 0x301 2) ∧
    Memory.wf (Memory.write (Memory.write [] 0x301 2) 0x300 1) ∧
    ∀ a, a < 4096 → Memory.read (Memory.write (Memory.write [] 0x300 1) 0x301 2) a =
      Memory.read (Memory.write (Memory.write [] 0x301 2) 0x300 1) a := by
  have h : Memory.write (Memory.write [] 0x300 1) 0x301 2 =
      Memory.write (Memory.write [] 0x301 2) 0x300 1 := by decide
  exact ⟨by decide, by decide, fun a _ => by rw [h]⟩

theorem witness_image_constructor :
    (List.replicate 4096 (0xAA : Byte)).length ≤ 4096 ∧ ([] : List Byte).length ≤ 4096 := by
  rw [List.length_replicate]; exact ⟨le_rfl, Nat.zero_le _⟩

theorem witness_oversized_image :
    4096 < (List.replicate 4097 (0xAA : Byte)).length ∧ ¬ 4096 < (List.replicate 4096 (0xAA : Byte)).length := by
  rw [List.length_replicate, List.length_replicate]; omega

theorem witness_parked : (load 0x1200).parked = true ∧ (loadAt 0xFFE 0x1FFE).parked = true := by decide

theorem witness_parked_timers :
    { withTimers (load 0x1200) 2 9 with inputs := [ticking, quiet, ticking, ticking] }.parked = true ∧
    { withTimers (load 0x1200) 2 9 with inputs := [ticking, quiet, ticking, ticking] }.inputs =
      [ticking, quiet, ticking, ticking] := by decide

end Sys2Proof.Tests
end

section
/-! The decoder on fixed words (30_encoding.md R75), and what an instruction reads of the step's inputs
(00_scope.md R13): every operation but the key query and the random byte commutes with `State.withInput`,
so the whole instruction does when the new inputs agree where it reads. -/

namespace Sys2Proof.Machine

/-! ### Operations commute with a change of the given inputs -/

/-- An instruction's answer with these inputs put in the place of the given ones. -/
def withInputIn (q : StepInput) : Result → Result
  | .next s => .next (s.withInput q)
  | .fault r => .fault r
  | .refused r => .refused r

theorem State.key_withInput (s : State) (q : StepInput) : (s.withInput q).key = q.key := rfl

theorem State.rnd_withInput (s : State) (q : StepInput) : (s.withInput q).rnd = q.rnd := rfl

theorem State.skipIf_withInput (s : State) (q : StepInput) (c : Bool) :
    (s.withInput q).skipIf c = (s.skipIf c).withInput q := by
  cases c <;> rfl

theorem State.takeKey_withInput (s : State) (q : StepInput) (x : Reg) (k : Option Key) :
    (s.withInput q).takeKey x k = (s.takeKey x k).withInput q := by
  cases k <;> rfl

theorem State.storeBytes_withInput (s : State) (q : StepInput) (a : Nat) (bs : List Byte) :
    (s.withInput q).storeBytes a bs = (s.storeBytes a bs).withInput q := by
  induction bs generalizing s a with
  | nil => rfl
  | cons b bs ih => exact ih (s.memWrite a b) (a + 1)

theorem State.loadBytes_withInput (s : State) (q : StepInput) (a count : Nat) :
    (s.withInput q).loadBytes a count = s.loadBytes a count := by
  induction count generalizing a with
  | zero => rfl
  | succ count ih => exact congrArg (s.memRead a :: ·) (ih (a + 1))

theorem State.setBlock_withInput (s : State) (q : StepInput) (k : Nat) (bs : List Byte) :
    (s.withInput q).setBlock k bs = (s.setBlock k bs).withInput q := by
  induction bs generalizing s k with
  | nil => rfl
  | cons b bs ih =>
    unfold State.setBlock
    split
    next h => exact ih (s.setV ⟨k, h⟩ b) (k + 1)
    next => rfl

theorem State.push_withInput (s : State) (q : StepInput) (v : Word) :
    (s.withInput q).push v = (s.push v).map (State.withInput · q) := by
  unfold State.push
  by_cases h : s.sp.val < 16
  · rw [dif_pos h]; exact dif_pos h
  · rw [dif_neg h]; exact dif_neg h

theorem State.pop_withInput (s : State) (q : StepInput) :
    (s.withInput q).pop = s.pop.map (Prod.map id (State.withInput · q)) := by
  unfold State.pop
  by_cases h : s.sp.val = 0
  · rw [dif_pos h]; exact dif_pos h
  · rw [dif_neg h]; exact dif_neg h

theorem withRange_withInput {s t t' : State} {q : StepInput} (h : t' = t.withInput q) (i : Instr)
    (base count : Nat) :
    withRange (s.withInput q) i base count t' = withInputIn q (withRange s i base count t) := by
  subst h
  unfold withRange
  cases firstOutOfRange base count <;> rfl

/-! ### Instructions that branch on the stack or on the range, or that go over a list of bytes -/

theorem execRet_withInput (s : State) (q : StepInput) :
    execRet (s.withInput q) = withInputIn q (execRet s) := by
  unfold execRet
  rw [s.pop_withInput]
  cases s.pop <;> rfl

theorem execCall_withInput (nnn : Addr) (s : State) (q : StepInput) :
    execCall nnn (s.withInput q) = withInputIn q (execCall nnn s) := by
  have hpush : (s.withInput q).push (s.withInput q).advance.pc =
      (s.push s.advance.pc).map (State.withInput · q) := s.push_withInput q s.advance.pc
  unfold execCall
  rw [hpush]
  cases s.push s.advance.pc <;> rfl

theorem execDrw_withInput (x y : Reg) (n : Nibble) (s : State) (q : StepInput) :
    execDrw x y n (s.withInput q) = withInputIn q (execDrw x y n s) := by
  have hrows : (s.withInput q).spriteRows n = s.spriteRows n := s.loadBytes_withInput q _ _
  unfold execDrw
  rw [hrows]
  apply withRange_withInput
  rfl

theorem execLdB_withInput (x : Reg) (s : State) (q : StepInput) :
    execLdB x (s.withInput q) = withInputIn q (execLdB x s) :=
  withRange_withInput (s.advance.storeBytes_withInput q s.base (bcdDigits (s.v x))) _ _ _

theorem execLdMemVx_withInput (x : Reg) (s : State) (q : StepInput) :
    execLdMemVx x (s.withInput q) = withInputIn q (execLdMemVx x s) :=
  have hstore := s.advance.storeBytes_withInput q s.base (s.regBlock x)
  withRange_withInput (congrArg (State.setI · (s.indexPlus (blockCount x))) hstore) _ _ _

theorem execLdVxMem_withInput (x : Reg) (s : State) (q : StepInput) :
    execLdVxMem x (s.withInput q) = withInputIn q (execLdVxMem x s) := by
  unfold execLdVxMem
  rw [s.loadBytes_withInput]
  have hblock := s.advance.setBlock_withInput q 0 (s.loadBytes s.base (blockCount x))
  exact withRange_withInput (congrArg (State.setI · (s.indexPlus (blockCount x))) hblock) _ _ _

/-! ### The whole instruction -/

/-- Inputs that agree with the state's own where the instruction reads them do not change its answer. -/
theorem exec_withInput (i : Instr) (s : State) (q : StepInput) (hkey : readsKey i → s.key = q.key)
    (hrnd : readsRnd i → s.rnd = q.rnd) :
    exec i (s.withInput q) = withInputIn q (exec i s) := by
  cases i with
  | cls | jp _ | ldImm _ _ | addImm _ _ | ldReg _ _ | or _ _ | and _ _ | xor _ _ | addReg _ _
  | sub _ _ | shr _ _ | shl _ _ | subn _ _ | ldI _ | jpV0 _ | ldVxDt _ | ldDtVx _ | ldStVx _ | addI _
  | ldF _ => rfl
  | seImm _ _ | sneImm _ _ | seReg _ _ | sneReg _ _ =>
    exact congrArg Host.Outcome.next (s.advance.skipIf_withInput q _)
  | skp x =>
    have h := hkey ⟨x, .inl rfl⟩
    simp only [exec, execSkp, State.key_withInput, ← h]
    exact congrArg Host.Outcome.next (s.advance.skipIf_withInput q _)
  | sknp x =>
    have h := hkey ⟨x, .inr (.inl rfl)⟩
    simp only [exec, execSknp, State.key_withInput, ← h]
    exact congrArg Host.Outcome.next (s.advance.skipIf_withInput q _)
  | ldVxK x =>
    have h := hkey ⟨x, .inr (.inr rfl)⟩
    simp only [exec, execLdVxK, State.key_withInput, ← h]
    exact congrArg Host.Outcome.next (s.advance.takeKey_withInput q x _)
  | rnd x nn =>
    have h := hrnd ⟨x, nn, rfl⟩
    simp only [exec, execRnd, State.rnd_withInput, ← h]
    rfl
  | ret => exact execRet_withInput s q
  | call nnn => exact execCall_withInput nnn s q
  | drw x y n => exact execDrw_withInput x y n s q
  | ldB x => exact execLdB_withInput x s q
  | ldMemVx x => exact execLdMemVx_withInput x s q
  | ldVxMem x => exact execLdVxMem_withInput x s q

end Sys2Proof.Machine

open Sys2Proof.Machine

/-- Settles O49: the inputs are put in the place of the ones given first (`exec_withInput`). -/
theorem inputsReadOnlyWhereNamed : Obligations.InputsReadOnlyWhereNamed := by
  intro i s t p q hkey hrnd h
  have hexec : exec i (s.withInput q) = withInputIn q (exec i (s.withInput p)) :=
    exec_withInput i (s.withInput p) q hkey hrnd
  rw [hexec, h]
  rfl

/-- Settles O1: each word is closed, and the decoder evaluates on it. -/
theorem specWordsDecode : Obligations.SpecWordsDecode := by
  unfold Obligations.SpecWordsDecode
  decide

end

section
/-! What one instruction can change and what it keeps. An instruction either takes a fault on the state
before the step or completes (`FaultsOr`); a completed one changes only what `writesOf` names. The frame is
proved from one rule per state operation. -/

namespace Sys2Proof.Machine

/-! ### Frames: one rule per state operation -/

section
variable {w : Writes} {s t : State}

theorem Frame.refl (w : Writes) (s : State) : Frame w s s where
  regs _ _ := rfl
  index _ := rfl
  sp _ := rfl
  stack _ := rfl
  delay _ := rfl
  sound _ := rfl
  display _ := rfl
  memory _ _ := rfl
  halted := rfl
  fault := rfl
  subnFlag := rfl
  inputs := rfl
  drawn := rfl

theorem Frame.advance (h : Frame w s t) : Frame w s t.advance := { h with }

theorem Frame.jump (h : Frame w s t) (p : Word) : Frame w s (t.jump p) := { h with }

theorem Frame.skipIf (h : Frame w s t) : ∀ c : Bool, Frame w s (t.skipIf c)
  | true => h.jump _
  | false => h

theorem Frame.setV (h : Frame w s t) {r : Reg} (hr : r ∈ w.regs) (b : Byte) : Frame w s (t.setV r b) :=
  { h with
    regs := fun q hq => by
      have hqr : q ≠ r := fun he => hq (he ▸ hr)
      rw [State.v_setV_other hqr, h.regs q hq] }

theorem Frame.takeKey (h : Frame w s t) {x : Reg} (hx : x ∈ w.regs) :
    ∀ k : Option Key, Frame w s (t.takeKey x k)
  | none => h.jump _
  | some _ => h.setV hx _

theorem Frame.setBlock (h : Frame w s t) (k : Nat) (bs : List Byte)
    (hr : ∀ r : Reg, r.val < k + bs.length → r ∈ w.regs) : Frame w s (t.setBlock k bs) := by
  induction bs generalizing t k with
  | nil => exact h
  | cons b bs ih =>
    rw [List.length_cons] at hr
    unfold State.setBlock
    split
    next hk => exact ih (h.setV (hr ⟨k, hk⟩ (by simp)) b) (k + 1) fun r hlt => hr r (by omega)
    next => exact h

theorem Frame.setI (h : Frame w s t) (hw : w.index = true) (v : Word) : Frame w s (t.setI v) :=
  { h with index := fun hf => absurd (hw.symm.trans hf) (by decide) }

theorem Frame.setDT (h : Frame w s t) (hw : w.delay = true) (b : Byte) : Frame w s { t with DT := b } :=
  { h with delay := fun hf => absurd (hw.symm.trans hf) (by decide) }

theorem Frame.setST (h : Frame w s t) (hw : w.sound = true) (b : Byte) : Frame w s { t with ST := b } :=
  { h with sound := fun hf => absurd (hw.symm.trans hf) (by decide) }

theorem Frame.setFB (h : Frame w s t) (hw : w.display = true) (fb : FrameBuffer) :
    Frame w s { t with FB := fb } :=
  { h with display := fun hf => absurd (hw.symm.trans hf) (by decide) }

theorem Frame.setCallStack (h : Frame w s t) (hw : w.callStack = true) (k : Fin 17) (st : Vector Word 16) :
    Frame w s { t with sp := k, stack := st } :=
  { h with
    sp := fun hf => absurd (hw.symm.trans hf) (by decide)
    stack := fun hf => absurd (hw.symm.trans hf) (by decide) }

theorem Frame.memWrite (h : Frame w s t) {a : Nat} (ha : w.memBase ≤ a ∧ a < w.memBase + w.memCount)
    (b : Byte) : Frame w s (t.memWrite a b) :=
  { h with
    memory := fun c hc => by
      have hca : c ≠ a := fun he => hc (he ▸ ha)
      exact (Memory.read_write_other t.mem a c b hca).trans (h.memory c hc) }

theorem Frame.storeBytes (h : Frame w s t) (a : Nat) (bs : List Byte)
    (ha : w.memBase ≤ a ∧ a + bs.length ≤ w.memBase + w.memCount) : Frame w s (t.storeBytes a bs) := by
  induction bs generalizing t a with
  | nil => exact h
  | cons b bs ih =>
    rw [List.length_cons] at ha
    exact ih (h.memWrite (by omega) b) (a + 1) (by omega)

end

/-! ### What an instruction answers -/

/-- The answer is a next state: the fault entry on `s`, with a cause and the instruction's own word, or a
completed state with the property `P`. -/
def FaultsOr (s : State) (i : Instr) (P : State → Prop) (r : Result) : Prop :=
  ∃ u, r = .next u ∧ ((∃ c a, c ≠ .noFault ∧ u = s.raise c (encode i) a) ∨ P u)

section
variable {s t : State} {i : Instr} {P : State → Prop}

theorem FaultsOr.completes (h : P t) : FaultsOr s i P (.next t) := ⟨t, rfl, .inr h⟩

theorem FaultsOr.faults {c : FaultCause} {a : Nat} (hc : c ≠ .noFault) :
    FaultsOr s i P (raiseIn s c i a) := ⟨_, rfl, .inl ⟨c, a, hc, rfl⟩⟩

theorem FaultsOr.withRange (h : P t) (base count : Nat) :
    FaultsOr s i P (withRange s i base count t) := by
  obtain ⟨-, heq⟩ | ⟨-, heq⟩ := withRange_cases s i base count t
  · rw [heq]; exact .completes h
  · rw [heq]; exact .faults (by decide)

/-- Which of the two a given answer is. -/
theorem FaultsOr.of_next {u : State} {r : Result} (h : FaultsOr s i P r) (hr : r = .next u) :
    (∃ c a, c ≠ .noFault ∧ u = s.raise c (encode i) a) ∨ P u := by
  obtain ⟨u', hu', hcase⟩ := h
  obtain rfl := Host.Outcome.next.inj (hr.symm.trans hu')
  exact hcase

end

/-- RET faults, or takes sp down by one and goes to the entry found there (R121). -/
theorem execRet_faultsOr {s : State} {P : State → Prop}
    (h : ∀ k : Fin 16, s.sp.val = k.val + 1 → P ({ s with sp := k.castSucc }.jump s.stack[k])) :
    FaultsOr s .ret P (execRet s) := by
  unfold execRet
  cases hpop : s.pop with
  | none => exact .faults (by decide)
  | some p =>
    obtain ⟨k, hsp, hv, ht⟩ := State.pop_eq_some (v := p.1) (t := p.2) hpop
    simp only [hv, ht]
    exact .completes (h k hsp)

/-- CALL faults, or pushes pc0 + 2 at sp and goes to its target (R123). -/
theorem execCall_faultsOr {s : State} {nnn : Addr} {P : State → Prop}
    (h : ∀ k : Fin 16, s.sp.val = k.val →
      P ({ s with stack := s.stack.set k.val (s.pc + 2) k.isLt, sp := k.succ }.jump (addrWord nnn))) :
    FaultsOr s (.call nnn) P (execCall nnn s) := by
  unfold execCall
  cases hpush : s.push s.advance.pc with
  | none => exact .faults (by decide)
  | some u =>
    obtain ⟨k, hsp, rfl⟩ := State.push_eq_some hpush
    exact .completes (h k hsp)

/-! ### The frame of every instruction -/

/-- What an instruction may write in the state `s`, besides pc. -/
def writesOf (i : Instr) (s : State) : Writes :=
  match i with
  | .cls => { display := true }
  | .ret | .call _ => { callStack := true }
  | .ldImm x _ | .addImm x _ | .ldReg x _ | .or x _ | .and x _ | .xor x _ | .rnd x _ | .ldVxDt x
  | .ldVxK x => { regs := [x] }
  | .addReg x _ | .sub x _ | .shr x _ | .subn x _ | .shl x _ => { regs := [x, vf] }
  | .ldI _ | .addI _ | .ldF _ => { index := true }
  | .drw _ _ _ => { regs := [vf], display := true }
  | .ldDtVx _ => { delay := true }
  | .ldStVx _ => { sound := true }
  | .ldB _ => { memBase := s.base, memCount := 3 }
  | .ldMemVx x => { index := true, memBase := s.base, memCount := blockCount x }
  | .ldVxMem x => { index := true, regs := (List.finRange 16).filter (· ≤ x) }
  | .jp _ | .seImm _ _ | .sneImm _ _ | .seReg _ _ | .sneReg _ _ | .jpV0 _ | .skp _ | .sknp _ => {}

/-- An instruction that completes changes only pc and what `writesOf` names. -/
theorem exec_frame (i : Instr) (s : State) : FaultsOr s i (Frame (writesOf i s) s) (exec i s) := by
  have hadv : Frame (writesOf i s) s s.advance := (Frame.refl _ s).advance
  cases i with
  | cls => exact .completes (hadv.setFB rfl _)
  | ret => exact execRet_faultsOr fun k _ => ((Frame.refl _ s).setCallStack rfl _ _).jump _
  | call _ => exact execCall_faultsOr fun k _ => ((Frame.refl _ s).setCallStack rfl _ _).jump _
  | jp _ | jpV0 _ => exact .completes (hadv.jump _)
  | seImm _ _ | sneImm _ _ | seReg _ _ | sneReg _ _ | skp _ | sknp _ => exact .completes (hadv.skipIf _)
  | ldImm _ _ | addImm _ _ | ldReg _ _ | or _ _ | and _ _ | xor _ _ | rnd _ _ | ldVxDt _ =>
    exact .completes (hadv.setV (.head _) _)
  | addReg _ _ | sub _ _ | shr _ _ | shl _ _ =>
    exact .completes ((hadv.setV (.tail _ (.head _)) _).setV (.head _) _)
  | subn _ _ => exact .completes ((hadv.setV (.head _) _).setV (.tail _ (.head _)) _)
  | ldI _ | addI _ | ldF _ => exact .completes (hadv.setI rfl _)
  | drw _ _ _ => exact .withRange ((hadv.setFB rfl _).setV (.head _) _) _ _
  | ldVxK _ => exact .completes (hadv.takeKey (.head _) _)
  | ldDtVx _ => exact .completes (hadv.setDT rfl _)
  | ldStVx _ => exact .completes (hadv.setST rfl _)
  | ldB _ => exact .withRange (hadv.storeBytes _ _ ⟨le_rfl, le_rfl⟩) _ _
  | ldMemVx x =>
    have hlen : (s.regBlock x).length = blockCount x := s.length_regBlock x
    exact .withRange ((hadv.storeBytes _ _ ⟨le_rfl, by rw [hlen]; rfl⟩).setI rfl _) _ _
  | ldVxMem x =>
    refine .withRange ((hadv.setBlock 0 _ fun r hr => ?_).setI rfl _) _ _
    rw [State.length_loadBytes, blockCount] at hr
    have hrx : r ≤ x := Fin.le_def.2 (by omega)
    simpa [writesOf] using hrx

/-! ### One step -/

/-- What a step that answers a next state did: it took a fault, or it ran an instruction that completed
within its frame, and then ended with the tick and the use of one input. -/
theorem step_faults_or_runs {s t : State} (h : step s = .next t) :
    (∃ c w a, c ≠ .noFault ∧ t = s.raise c w a) ∨
    ∃ i u, Runs s i ∧ exec i s = .next u ∧ Frame (writesOf i s) s u ∧ t = u.tickTimers.nextInput := by
  obtain ⟨hrun, ⟨a, -, ht⟩ | ⟨w, -, -, -, ht⟩ | ⟨w, i, u, hfetch, hdec, hexec, rfl⟩⟩ := step_cases h
  · exact .inl ⟨_, _, _, by decide, ht⟩
  · exact .inl ⟨_, _, _, by decide, ht⟩
  · obtain ⟨hpc, rfl⟩ := State.fetch_eq_ok.1 hfetch
    obtain ⟨c, a, hc, rfl⟩ | hframe := (exec_frame i s).of_next hexec
    · exact .inl ⟨c, _, a, hc, State.endStep_of_halted rfl⟩
    · exact .inr ⟨i, u, ⟨hrun, hpc, hdec⟩, hexec, hframe,
        State.endStep_of_running (hframe.halted.trans hrun)⟩

end Sys2Proof.Machine
end

section
/-! The invariant (`Inv`): one rule per state operation, then every instruction, then a step. -/

namespace Sys2Proof.Machine

/-! ### Program counter values -/

/-- A pc below 0x1000 moves up by 2 with no wrap of its 16 bits. -/
theorem toNat_add_two {p : Word} (h : p.toNat ≤ 0x1000) : (p + 2).toNat = p.toNat + 2 := by
  bv_omega

/-- A jump target of R122 and R123 is a 12-bit address. -/
theorem addrWord_toNat_le (nnn : Addr) : (addrWord nnn).toNat ≤ 0xFFF := by
  have := nnn.isLt
  rw [addrWord, BitVec.toNat_setWidth]
  omega

/-- The unmasked target of R128 is at most 0x10FE, the highest pc of R34. -/
theorem offsetTarget_toNat_le (v0 : Byte) (nnn : Addr) : (offsetTarget v0 nnn).toNat ≤ 0x10FE := by
  have := v0.isLt
  have := nnn.isLt
  rw [offsetTarget, BitVec.toNat_ofNat]
  omega

/-! ### The invariant: one rule per state operation -/

section
variable {s t : State}

/-- The invariant reads memory, pc, the stack and the fault fields, and nothing else. -/
theorem Inv.congr (h : Inv s) (hmem : t.mem = s.mem) (hpc : t.pc = s.pc) (hstack : t.stack = s.stack)
    (hhalted : t.halted = s.halted) (hfault : t.fault = s.fault) : Inv t where
  memory := hmem ▸ h.memory
  pc := hpc ▸ h.pc
  stack := hstack ▸ h.stack
  running := by rw [hhalted, hfault]; exact h.running
  stopped := by rw [hhalted, hfault]; exact h.stopped

theorem Inv.jump (h : Inv s) {p : Word} (hp : p.toNat ≤ 0x10FE) : Inv (s.jump p) :=
  { h with pc := hp }

theorem Inv.setV (h : Inv s) (r : Reg) (b : Byte) : Inv (s.setV r b) := { h with }

theorem Inv.setI (h : Inv s) (v : Word) : Inv (s.setI v) := { h with }

theorem Inv.storeBytes (h : Inv s) (a : Nat) (bs : List Byte) : Inv (s.storeBytes a bs) where
  memory := s.wf_storeBytes a bs h.memory
  pc := by simpa using h.pc
  stack := by simpa using h.stack
  running := by simpa using h.running
  stopped := by simpa using h.stopped

theorem Inv.setBlock (h : Inv s) (k : Nat) (bs : List Byte) : Inv (s.setBlock k bs) :=
  h.congr (s.setBlock_mem k bs) (s.setBlock_pc k bs) (s.setBlock_stack k bs) (s.setBlock_halted k bs)
    (s.setBlock_fault k bs)

/-- After a fetch, pc advances within the reach of R34. -/
theorem Inv.advance (h : Inv s) (hpc : s.pc.toNat ≤ 4094) : Inv s.advance :=
  h.jump (p := s.pc + 2) (by rw [toNat_add_two (by omega)]; omega)

/-- After a fetch, a skip goes within the reach of R34. -/
theorem Inv.advance_skipIf (h : Inv s) (hpc : s.pc.toNat ≤ 4094) (c : Bool) :
    Inv (s.advance.skipIf c) := by
  have hadv : s.advance.pc.toNat = s.pc.toNat + 2 := toNat_add_two (by omega)
  cases c with
  | true => exact (h.advance hpc).jump (by rw [toNat_add_two (by omega)]; omega)
  | false => exact h.advance hpc

/-- The retry of `LD Vx, K` goes back to the fetch address (R216). -/
theorem Inv.advance_takeKey (h : Inv s) (hpc : s.pc.toNat ≤ 4094) (x : Reg) :
    ∀ k : Option Key, Inv (s.advance.takeKey x k)
  | none => h.jump (p := s.pc + 2 - 2) (by rw [BitVec.add_sub_cancel]; omega)
  | some _ => (h.advance hpc).setV x _

/-- A popped entry is a target within the reach of R34. -/
theorem Inv.ret (h : Inv s) (k : Fin 16) : Inv ({ s with sp := k.castSucc }.jump s.stack[k]) :=
  { h with pc := (h.stack k).trans (by decide) }

/-- A pushed entry is pc0 + 2, at most 0x1000. -/
theorem Inv.push (h : Inv s) {v : Word} (hv : v.toNat ≤ 0x1000) (k : Fin 16) (sp : Fin 17) :
    Inv { s with stack := s.stack.set k.val v k.isLt, sp := sp } :=
  { h with
    stack := fun j => by
      have hj := h.stack j
      simp only [Fin.getElem_fin, Vector.getElem_set] at hj ⊢
      split
      · exact hv
      · exact hj }

theorem Inv.raise (h : Inv s) {c : FaultCause} (hc : c ≠ .noFault) (w : Word) (a : Nat) :
    Inv (s.raise c w a) where
  memory := h.memory
  pc := h.pc
  stack := h.stack
  running hf := nomatch hf
  stopped _ := hc

end

/-! ### Every instruction -/

/-- An instruction run after a fetch keeps the invariant. -/
theorem exec_inv (i : Instr) {s : State} (h : Inv s) (hpc : s.pc.toNat ≤ 4094) :
    FaultsOr s i Inv (exec i s) := by
  have hadv : Inv s.advance := h.advance hpc
  cases i with
  | cls | ldDtVx _ | ldStVx _ => exact .completes { hadv with }
  | ret => exact execRet_faultsOr fun k _ => h.ret k
  | call nnn =>
    have hpushed : (s.pc + 2).toNat ≤ 0x1000 := by rw [toNat_add_two (by omega)]; omega
    exact execCall_faultsOr fun k _ => (h.push hpushed k _).jump ((addrWord_toNat_le nnn).trans (by decide))
  | jp nnn => exact .completes (hadv.jump ((addrWord_toNat_le nnn).trans (by decide)))
  | jpV0 nnn => exact .completes (hadv.jump (offsetTarget_toNat_le _ nnn))
  | seImm _ _ | sneImm _ _ | seReg _ _ | sneReg _ _ | skp _ | sknp _ =>
    exact .completes (h.advance_skipIf hpc _)
  | ldImm _ _ | addImm _ _ | ldReg _ _ | or _ _ | and _ _ | xor _ _ | rnd _ _ | ldVxDt _ =>
    exact .completes (hadv.setV _ _)
  | addReg _ _ | sub _ _ | shr _ _ | shl _ _ | subn _ _ =>
    exact .completes ((hadv.setV _ _).setV _ _)
  | ldI _ | addI _ | ldF _ => exact .completes (hadv.setI _)
  | drw _ _ _ => exact .withRange { hadv with } _ _
  | ldVxK x => exact .completes (h.advance_takeKey hpc x _)
  | ldB _ => exact .withRange (hadv.storeBytes _ _) _ _
  | ldMemVx _ => exact .withRange ((hadv.storeBytes _ _).setI _) _ _
  | ldVxMem _ => exact .withRange ((hadv.setBlock _ _).setI _) _ _

end Sys2Proof.Machine

open Sys2Proof.Machine

/-- Settles O50: a fault writes only the record and `halted`; an instruction that completes keeps the
invariant (`exec_inv`), and the end of the step touches nothing the invariant reads. -/
theorem stepKeepsInv : Obligations.StepKeepsInv := by
  intro s t hs h
  obtain ⟨c, w, a, hc, rfl⟩ | ⟨i, u, hruns, hexec, -, rfl⟩ := step_faults_or_runs h
  · exact hs.raise hc w a
  · have hu : Inv u := by
      obtain ⟨c, a, hc, rfl⟩ | hu := (exec_inv i hs hruns.fetchable).of_next hexec
      · exact hs.raise hc _ a
      · exact hu
    exact hu.congr (by simp) (by simp) (by simp) (by simp) (by simp)

/-- Settles O51: memory lists no cell, pc is 0x200, every stack entry is 0 and the record is NONE. -/
theorem resetInv : Obligations.ResetInv where
  memory := State.reset_mem_wf
  pc := by decide
  stack := by decide
  running _ := rfl
  stopped hf := nomatch hf

end

section
/-! Which instruction a step that changed a given part of the state has run (10_state.md R20–R30): a fault
changes none of these parts, and a completed instruction only what `writesOf` names. -/

namespace Sys2Proof.Machine

/-- RET leaves every stack entry as it is (R25). -/
theorem exec_ret_stack {s u : State} (h : exec .ret s = .next u) : u.stack = s.stack := by
  have hret : FaultsOr s .ret (fun u => u.stack = s.stack) (exec .ret s) :=
    execRet_faultsOr fun _ _ => rfl
  obtain ⟨_, _, -, rfl⟩ | hstack := hret.of_next h
  · rfl
  · exact hstack

/-- The registers an instruction may write are its destination, or VF as the flag of the six that write it. -/
theorem named_of_mem_regs {i : Instr} {s : State} {r : Reg} (h : r ∈ (writesOf i s).regs) :
    namesDest i r ∨ r = vf ∧ writesFlag i := by
  cases i with
  | ldImm x _ | addImm x _ | ldReg x _ | or x _ | and x _ | xor x _ | rnd x _ | ldVxDt x | ldVxK x =>
    exact .inl (List.mem_singleton.1 h)
  | addReg x _ | sub x _ | shr x _ | subn x _ | shl x _ =>
    obtain hx | hvf := List.mem_pair.1 h
    · exact .inl hx
    · exact .inr ⟨hvf, trivial⟩
  | drw _ _ _ => exact .inr ⟨List.mem_singleton.1 h, trivial⟩
  | ldVxMem x => exact .inl (by simpa [writesOf, namesDest] using h)
  | _ => cases h

/-- A timer that the countdown changed was lowered by one, under a tick (R241). -/
theorem countdown_ne {tick : Bool} {b : Byte} (h : countdown tick b ≠ b) :
    tick = true ∧ (countdown tick b).toNat + 1 = b.toNat := by
  have hne : (countdown tick b).toNat ≠ b.toNat := fun he => h (BitVec.eq_of_toNat_eq he)
  rw [countdown_toNat] at hne ⊢
  cases tick with
  | true => exact ⟨rfl, by simp only [if_true] at hne ⊢; omega⟩
  | false => exact absurd rfl hne

/-- The tick is read from the model's own input fields, which no instruction writes. -/
theorem Frame.tick_eq {w : Writes} {s t : State} (h : Frame w s t) : t.tick = s.tick := by
  rw [State.tick, State.tick, State.input, State.input, h.inputs, h.drawn]

end Sys2Proof.Machine

open Sys2Proof.Machine

/-- Settles O42: RET and CALL alone have the call stack in their frame, and RET pops with no write of an
entry. -/
theorem onlyCallAndRetWriteSp : Obligations.OnlyCallAndRetWriteSp := by
  intro s t h
  obtain ⟨_, _, _, -, rfl⟩ | ⟨i, u, hruns, hexec, hframe, rfl⟩ := step_faults_or_runs h
  · exact ⟨fun hsp => absurd rfl hsp, fun hstack => absurd rfl hstack⟩
  · rw [State.nextInput_sp, State.tickTimers_sp, State.nextInput_stack, State.tickTimers_stack]
    cases i with
    | ret => exact ⟨fun _ => .inl hruns, fun hstack => absurd (exec_ret_stack hexec) hstack⟩
    | call nnn => exact ⟨fun _ => .inr ⟨nnn, hruns⟩, fun _ => ⟨nnn, hruns⟩⟩
    | _ => exact ⟨fun hsp => absurd (hframe.sp rfl) hsp, fun hstack => absurd (hframe.stack rfl) hstack⟩

/-- Settles O43: CLS and DRW alone have the framebuffer in their frame. -/
theorem onlyClsAndDrwWriteDisplay : Obligations.OnlyClsAndDrwWriteDisplay := by
  intro s t h hFB
  obtain ⟨_, _, _, -, rfl⟩ | ⟨i, u, hruns, -, hframe, rfl⟩ := step_faults_or_runs h
  · exact absurd rfl hFB
  · rw [State.nextInput_FB, State.tickTimers_FB] at hFB
    cases i with
    | cls => exact .inl hruns
    | drw x y n => exact .inr ⟨x, y, n, hruns⟩
    | _ => exact absurd (hframe.display rfl) hFB

/-- Settles O44: the five have I in their frame, and no other instruction has. -/
theorem onlyIndexInstrsWriteIndex : Obligations.OnlyIndexInstrsWriteIndex := by
  intro s t h hI
  obtain ⟨_, _, _, -, rfl⟩ | ⟨i, u, hruns, -, hframe, rfl⟩ := step_faults_or_runs h
  · exact absurd rfl hI
  · rw [State.nextInput_I, State.tickTimers_I] at hI
    cases i with
    | ldI nnn => exact .inl ⟨nnn, hruns⟩
    | addI x => exact .inr ⟨x, .inl hruns⟩
    | ldF x => exact .inr ⟨x, .inr (.inl hruns)⟩
    | ldMemVx x => exact .inr ⟨x, .inr (.inr (.inl hruns))⟩
    | ldVxMem x => exact .inr ⟨x, .inr (.inr (.inr hruns))⟩
    | _ => exact absurd (hframe.index rfl) hI

/-- Settles O46: a changed register is one that the frame names (`named_of_mem_regs`). -/
theorem onlyNamedRegistersChange : Obligations.OnlyNamedRegistersChange := by
  intro s t h r hr
  obtain ⟨_, _, _, -, rfl⟩ | ⟨i, u, hruns, -, hframe, rfl⟩ := step_faults_or_runs h
  · exact absurd rfl hr
  · have hV : u.tickTimers.nextInput.V = u.V := by rw [State.nextInput_V, State.tickTimers_V]
    rw [State.v_congr hV] at hr
    have hmem : r ∈ (writesOf i s).regs := by_contra fun hn => hr (hframe.regs r hn)
    exact ⟨i, hruns, named_of_mem_regs hmem⟩

/-- Settles O47: but for its own load an instruction keeps a timer, and then the end of the step counts it
down under this step's tick (`countdown_ne`). -/
theorem onlyLoadAndTickChangeTimers : Obligations.OnlyLoadAndTickChangeTimers := by
  intro s t h
  obtain ⟨_, _, _, -, rfl⟩ | ⟨i, u, hruns, -, hframe, rfl⟩ := step_faults_or_runs h
  · exact ⟨fun hDT => absurd rfl hDT, fun hST => absurd rfl hST⟩
  · rw [State.nextInput_DT, State.tickTimers_DT, State.nextInput_ST, State.tickTimers_ST, hframe.tick_eq]
    constructor
    · intro hDT
      cases i with
      | ldDtVx x => exact .inl ⟨x, hruns⟩
      | _ => rw [hframe.delay rfl] at hDT ⊢; exact .inr (countdown_ne hDT)
    · intro hST
      cases i with
      | ldStVx x => exact .inl ⟨x, hruns⟩
      | _ => rw [hframe.sound rfl] at hST ⊢; exact .inr (countdown_ne hST)

/-- Settles O48: the parameter is in no frame, and neither a fault nor the end of a step writes it. -/
theorem stepKeepsParameter : Obligations.StepKeepsParameter := by
  intro s t h
  obtain ⟨_, _, _, -, rfl⟩ | ⟨i, u, -, -, hframe, rfl⟩ := step_faults_or_runs h
  · rfl
  · rw [State.nextInput_subnFlag, State.tickTimers_subnFlag, hframe.subnFlag]

end

section
/-! The canonical form of memory (log entry 21) is unique: its cells are known from its reads. -/

namespace Sys2Proof.Machine

/-- The cells of a canonical memory: inside the space, what their address reads as, and not the background. -/
theorem Memory.mem_iff_of_wf {m : Memory} (h : m.wf) (c : Host.Cell) :
    c ∈ m ↔ c.1 < 4096 ∧ m.read c.1 = c.2 ∧ c.2 ≠ background c.1 := by
  obtain ⟨hrising, hcells⟩ := h
  constructor
  · intro hc
    obtain ⟨hlt, hne⟩ := hcells c hc
    exact ⟨hlt, Memory.read_of_mem hrising hc, hne⟩
  · rintro ⟨-, hread, hne⟩
    by_contra hc
    refine hne (hread.symm.trans (Memory.read_of_not_mem fun d hd hda => hc ?_))
    have hdc : d = c := Prod.ext hda (by rw [← hread, ← hda, Memory.read_of_mem hrising hd])
    exact hdc ▸ hd

end Sys2Proof.Machine

open Sys2Proof.Machine

/-- Settles O52: both list the same cells (`Memory.mem_iff_of_wf`), each in rising order. -/
theorem canonicalMemoryIsUnique : Obligations.CanonicalMemoryIsUnique := by
  intro m m' h h' hread
  have hmem : ∀ c, c ∈ m ↔ c ∈ m' := fun c => by
    rw [Memory.mem_iff_of_wf h, Memory.mem_iff_of_wf h']
    exact and_congr_right fun hlt => by rw [hread c.1 hlt]
  have hirr : Std.Irrefl fun c d : Host.Cell => c.1 < d.1 := ⟨fun c => lt_irrefl c.1⟩
  have hanti : Std.Antisymm fun c d : Host.Cell => c.1 < d.1 :=
    ⟨fun _ _ hcd hdc => absurd hcd (lt_asymm hdc)⟩
  exact List.Pairwise.eq_of_mem_iff h.1 h'.1 hmem

end

section
/-! Writes to memory (20_memory.md R50–R63): which instructions change it, and what the next fetch reads of a
stored block. -/

namespace Sys2Proof.Machine

/-- A transfer whose whole range lies in the space runs its body (R170). -/
theorem withRange_of_inRange {base count : Nat} (h : count = 0 ∨ base + (count - 1) ≤ 4095) (s : State)
    (i : Instr) (body : State) : withRange s i base count body = .next body := by
  rw [withRange, firstOutOfRange_eq_none.2 h]

/-- A block that lies in the space is stored, and I moves past it (R175). -/
theorem exec_ldMemVx_of_inRange {s : State} {x : Reg} (h : s.I.toNat + x.val ≤ 4095) :
    exec (.ldMemVx x) s =
      .next ((s.advance.storeBytes s.base (s.regBlock x)).setI (s.indexPlus (blockCount x))) :=
  withRange_of_inRange (.inr h) s _ _

/-- Byte k of a stored block reads as V[k]. -/
theorem memRead_of_exec_ldMemVx {s t : State} {x k : Reg} (hwf : s.mem.wf) (h : s.I.toNat + x.val ≤ 4095)
    (hk : k ≤ x) (hexec : exec (.ldMemVx x) s = .next t) : t.memRead (s.I.toNat + k.val) = s.v k := by
  obtain rfl := Host.Outcome.next.inj ((exec_ldMemVx_of_inRange h).symm.trans hexec)
  have hlen : (s.regBlock x).length = x.val + 1 := s.length_regBlock x
  have hkx : k.val < (s.regBlock x).length := by rw [hlen]; exact Nat.lt_succ_of_le hk
  rw [State.memRead_setI]
  calc (s.advance.storeBytes s.base (s.regBlock x)).memRead (s.I.toNat + k.val)
      = (s.regBlock x)[k.val] :=
        s.advance.memRead_storeBytes s.base _ k.val hwf (by rw [hlen, State.base]; omega) hkx
    _ = s.v k := s.getElem_regBlock x k hkx

/-- A word is big-endian (R52). -/
theorem toNat_wordOfBytes (hi lo : Byte) : (wordOfBytes hi lo).toNat = 256 * hi.toNat + lo.toNat := by
  rw [wordOfBytes, toNat_append_eq, Nat.mul_comm]
  rfl

end Sys2Proof.Machine

open Sys2Proof.Machine

/-- Settles O35: the bytes at pc and pc + 1 are the stored Vk and V(k+1) (`memRead_of_exec_ldMemVx`). -/
theorem storedWordIsFetched : Obligations.StoredWordIsFetched := by
  intro x k s t u hwf hrange hkx hexec hmem hpc
  have hsucc : (k + 1).val = k.val + 1 := Fin.val_add_one_of_lt (hkx.trans_le x.le_last)
  have hhi : u.memRead u.pc.toNat = s.v k := by
    rw [hmem, hpc, memRead_of_exec_ldMemVx hwf hrange hkx.le hexec]
  have hlo : u.memRead (u.pc.toNat + 1) = s.v (k + 1) := by
    have hle : k + 1 ≤ x := Fin.add_one_le_of_lt hkx
    rw [hmem, hpc, Nat.add_assoc, ← hsucc, memRead_of_exec_ldMemVx hwf hrange hle hexec]
  have hlt : k.val < x.val := hkx
  refine ⟨u.wordAtPc, State.fetch_eq_ok.2 ⟨by omega, rfl⟩, ?_⟩
  rw [State.wordAtPc, hhi, hlo, toNat_wordOfBytes]

/-- Settles O45: LD B and LD [I], Vx alone have stored bytes in their frame, the ones of their range. -/
theorem onlyStoresWriteMemory : Obligations.OnlyStoresWriteMemory := by
  intro s t h a ha
  obtain ⟨_, _, _, -, rfl⟩ | ⟨i, u, hruns, -, hframe, rfl⟩ := step_faults_or_runs h
  · exact absurd rfl ha
  · have hmem : u.tickTimers.nextInput.mem = u.mem := by rw [State.nextInput_mem, State.tickTimers_mem]
    rw [State.memRead_congr hmem] at ha
    have hrange : (writesOf i s).memBase ≤ a ∧ a < (writesOf i s).memBase + (writesOf i s).memCount :=
      by_contra fun hn => ha (hframe.memory a hn)
    obtain ⟨hlo, hhi⟩ := hrange
    cases i with
    | ldB x => exact .inl ⟨x, hruns, hlo, Nat.le_of_lt_succ hhi⟩
    | ldMemVx x => exact .inr ⟨x, hruns, hlo, Nat.le_of_lt_succ hhi⟩
    | _ => exact absurd hhi a.not_lt_zero

end

section
/-! The decoder and the encoder (30_encoding.md R71–R79): a word is built from its fields, the encoder undoes
the decoder on every accepted word (`encode_of_decode`), and a word that selects a row of the opcode map is the
word of an instruction with that row's mnemonic (`opcodeMap_covered`). -/

namespace Sys2Proof

/-! ### A word is the format of its own fields -/

/-! Stated with the operation code, and the constant low field, that a decoder branch or a row has found. -/

section
variable {w : Word} {op : Nibble}

theorem formNnn_fields (hop : opField w = op.toNat) : formNnn op (nnnField w) = w := by
  apply BitVec.eq_of_toNat_eq
  rw [opField_eq] at hop
  rw [formNnn_toNat, nnnField_toNat]
  omega

theorem formXNn_fields {nn : Byte} (hop : opField w = op.toNat) (hnn : (nnField w).toNat = nn.toNat) :
    formXNn op (xField w) nn = w := by
  apply BitVec.eq_of_toNat_eq
  rw [opField_eq] at hop
  rw [nnField_toNat] at hnn
  rw [formXNn_toNat, xField_val]
  omega

theorem formXYN_fields {n : Nibble} (hop : opField w = op.toNat) (hn : (nField w).toNat = n.toNat) :
    formXYN op (xField w) (yField w) n = w := by
  apply BitVec.eq_of_toNat_eq
  rw [opField_eq] at hop
  rw [nField_toNat] at hn
  rw [formXYN_toNat, xField_val, yField_val]
  omega

end

/-! ### The decoder's answer on every word -/

/-- The answer is right for the word: an instruction whose encoding is the word, or the word's rejection by
name. -/
def AnswersFor (w : Word) : Except DecodeError Instr → Prop
  | .ok i => encode i = w
  | .error e => e = .unsupportedOpcode w

section
variable {w : Word}

theorem decodeFamily0_answersFor : AnswersFor w (decodeFamily0 w) := by
  unfold decodeFamily0
  split
  next hw => exact hw.symm
  next =>
    split
    next hw => exact hw.symm
    next => rfl

theorem decodeFamily8_answersFor (hop : opField w = 0x8) : AnswersFor w (decodeFamily8 w) := by
  unfold decodeFamily8
  split
  case h_10 => rfl
  all_goals next hn => exact formXYN_fields hop hn

theorem decodeFamilyE_answersFor (hop : opField w = 0xE) : AnswersFor w (decodeFamilyE w) := by
  unfold decodeFamilyE
  split
  case h_3 => rfl
  all_goals next hnn => exact formXNn_fields hop hnn

theorem decodeFamilyF_answersFor (hop : opField w = 0xF) : AnswersFor w (decodeFamilyF w) := by
  unfold decodeFamilyF
  split
  case h_10 => rfl
  all_goals next hnn => exact formXNn_fields hop hnn

/-- Families 5 and 9, whose low nibble has to be 0. -/
theorem answersFor_ite_nField {i : Instr} (h : nField w = 0 → encode i = w) :
    AnswersFor w (if nField w = 0 then .ok i else unsupported w) := by
  split
  next hn => exact h hn
  next => rfl

/-- Every family answers right for its words: case h_(k + 1) of the split is family k. -/
theorem decode_answersFor (w : Word) : AnswersFor w (decode w) := by
  unfold decode
  split
  case h_1 => exact decodeFamily0_answersFor
  case h_9 hop => exact decodeFamily8_answersFor hop
  case h_15 hop => exact decodeFamilyE_answersFor hop
  case h_16 hop => exact decodeFamilyF_answersFor hop
  case h_17 => rfl
  case h_6 hop | h_10 hop =>
    exact answersFor_ite_nField fun hn => formXYN_fields hop (congrArg BitVec.toNat hn)
  case h_2 hop | h_3 hop | h_11 hop | h_12 hop => exact formNnn_fields hop
  case h_4 hop | h_5 hop | h_7 hop | h_8 hop | h_13 hop => exact formXNn_fields hop rfl
  case h_14 hop => exact formXYN_fields hop rfl

end

theorem encode_of_decode {w : Word} {i : Instr} (h : decode w = .ok i) : encode i = w := by
  have hw := decode_answersFor w
  rwa [h] at hw

/-- The decoder undoes the encoder, family by family (R74): the fields read back from a format are its
operands. -/
theorem decode_encode (i : Instr) : decode (encode i) = .ok i := by
  cases i with
  | cls | ret => rfl
  | jp _ | call _ | ldI _ | jpV0 _ | seImm _ _ | sneImm _ _ | ldImm _ _ | addImm _ _ | rnd _ _ | seReg _ _
  | sneReg _ _ | drw _ _ _ => simp [encode, decode]
  | ldReg _ _ | or _ _ | and _ _ | xor _ _ | addReg _ _ | sub _ _ | shr _ _ | subn _ _ | shl _ _ =>
    simp [encode, decode, decodeFamily8]
  | skp _ | sknp _ => simp [encode, decode, decodeFamilyE]
  | ldVxDt _ | ldVxK _ | ldDtVx _ | ldStVx _ | addI _ | ldF _ | ldB _ | ldMemVx _ | ldVxMem _ =>
    simp [encode, decode, decodeFamilyF]

/-! ### The rows of the opcode map -/

theorem OpcodeRow.selects_iff {r : OpcodeRow} {w : Word} : r.selects w = true ↔ w &&& r.mask = r.pattern :=
  beq_iff_eq

/-- Every word the row selects is the encoding of an instruction with the row's mnemonic. -/
def OpcodeRow.Covered (r : OpcodeRow) : Prop :=
  ∀ w, r.selects w = true → ∃ i : Instr, i.mnemonic = r.mnemonic ∧ encode i = w

/-- A mask that holds a field whole hands the field on to the pattern. -/
theorem extractLsb'_of_mask {w k p : Word} {start len : Nat} (h : w &&& k = p)
    (hk : k.extractLsb' start len = BitVec.allOnes len) :
    w.extractLsb' start len = p.extractLsb' start len := by
  rw [← h, BitVec.extractLsb'_and, hk, BitVec.and_allOnes]

theorem opField_of_mask {w k p : Word} (h : w &&& k = p) (hk : k.extractLsb' 12 4 = BitVec.allOnes 4) :
    opField w = opField p :=
  congrArg BitVec.toNat (extractLsb'_of_mask h hk)

/-! One rule per kind of row: the fields that its mask leaves free are operands. -/

section
variable {m : String} {p : Word} {op : Nibble}

theorem OpcodeRow.covered_word (i : Instr) (hm : i.mnemonic = m) (he : encode i = p) :
    OpcodeRow.Covered ⟨m, p, 0xFFFF⟩ := fun w h => by
  have hmask : w &&& BitVec.allOnes 16 = p := OpcodeRow.selects_iff.1 h
  exact ⟨i, hm, by rw [he, ← hmask, BitVec.and_allOnes]⟩

theorem OpcodeRow.covered_nnn (mk : Addr → Instr) (hm : ∀ nnn, (mk nnn).mnemonic = m)
    (he : ∀ nnn, encode (mk nnn) = formNnn op nnn) (hop : opField p = op.toNat) :
    OpcodeRow.Covered ⟨m, p, 0xF000⟩ := fun w h => by
  have hmask : w &&& 0xF000 = p := OpcodeRow.selects_iff.1 h
  exact ⟨mk (nnnField w), hm _, (he _).trans (formNnn_fields ((opField_of_mask hmask rfl).trans hop))⟩

theorem OpcodeRow.covered_xnn (mk : Reg → Byte → Instr) (hm : ∀ x nn, (mk x nn).mnemonic = m)
    (he : ∀ x nn, encode (mk x nn) = formXNn op x nn) (hop : opField p = op.toNat) :
    OpcodeRow.Covered ⟨m, p, 0xF000⟩ := fun w h => by
  have hmask : w &&& 0xF000 = p := OpcodeRow.selects_iff.1 h
  exact ⟨mk (xField w) (nnField w), hm _ _,
    (he _ _).trans (formXNn_fields ((opField_of_mask hmask rfl).trans hop) rfl)⟩

theorem OpcodeRow.covered_xyn (mk : Reg → Reg → Nibble → Instr) (hm : ∀ x y n, (mk x y n).mnemonic = m)
    (he : ∀ x y n, encode (mk x y n) = formXYN op x y n) (hop : opField p = op.toNat) :
    OpcodeRow.Covered ⟨m, p, 0xF000⟩ := fun w h => by
  have hmask : w &&& 0xF000 = p := OpcodeRow.selects_iff.1 h
  exact ⟨mk (xField w) (yField w) (nField w), hm _ _ _,
    (he _ _ _).trans (formXYN_fields ((opField_of_mask hmask rfl).trans hop) rfl)⟩

theorem OpcodeRow.covered_xy {n : Nibble} (mk : Reg → Reg → Instr) (hm : ∀ x y, (mk x y).mnemonic = m)
    (he : ∀ x y, encode (mk x y) = formXYN op x y n) (hop : opField p = op.toNat) (hn : nField p = n) :
    OpcodeRow.Covered ⟨m, p, 0xF00F⟩ := fun w h => by
  have hmask : w &&& 0xF00F = p := OpcodeRow.selects_iff.1 h
  have hnw : nField w = n := (extractLsb'_of_mask hmask rfl).trans hn
  exact ⟨mk (xField w) (yField w), hm _ _,
    (he _ _).trans (formXYN_fields ((opField_of_mask hmask rfl).trans hop) (congrArg BitVec.toNat hnw))⟩

theorem OpcodeRow.covered_x {nn : Byte} (mk : Reg → Instr) (hm : ∀ x, (mk x).mnemonic = m)
    (he : ∀ x, encode (mk x) = formXNn op x nn) (hop : opField p = op.toNat) (hnn : nnField p = nn) :
    OpcodeRow.Covered ⟨m, p, 0xF0FF⟩ := fun w h => by
  have hmask : w &&& 0xF0FF = p := OpcodeRow.selects_iff.1 h
  have hnnw : nnField w = nn := (extractLsb'_of_mask hmask rfl).trans hnn
  exact ⟨mk (xField w), hm _,
    (he _).trans (formXNn_fields ((opField_of_mask hmask rfl).trans hop) (congrArg BitVec.toNat hnnw))⟩

end

/-- The map row by row (R75): each names its instruction and the format of that instruction's operands. -/
theorem opcodeMap_covered : ∀ r ∈ opcodeMap, r.Covered := by
  simp only [opcodeMap, List.cons_append, List.nil_append, List.forall_mem_cons]
  exact ⟨OpcodeRow.covered_word .cls rfl rfl,
    OpcodeRow.covered_word .ret rfl rfl,
    OpcodeRow.covered_nnn .jp (fun _ => rfl) (fun _ => rfl) rfl,
    OpcodeRow.covered_nnn .call (fun _ => rfl) (fun _ => rfl) rfl,
    OpcodeRow.covered_xnn .seImm (fun _ _ => rfl) (fun _ _ => rfl) rfl,
    OpcodeRow.covered_xnn .sneImm (fun _ _ => rfl) (fun _ _ => rfl) rfl,
    OpcodeRow.covered_xy .seReg (fun _ _ => rfl) (fun _ _ => rfl) rfl rfl,
    OpcodeRow.covered_xnn .ldImm (fun _ _ => rfl) (fun _ _ => rfl) rfl,
    OpcodeRow.covered_xnn .addImm (fun _ _ => rfl) (fun _ _ => rfl) rfl,
    OpcodeRow.covered_xy .ldReg (fun _ _ => rfl) (fun _ _ => rfl) rfl rfl,
    OpcodeRow.covered_xy .or (fun _ _ => rfl) (fun _ _ => rfl) rfl rfl,
    OpcodeRow.covered_xy .and (fun _ _ => rfl) (fun _ _ => rfl) rfl rfl,
    OpcodeRow.covered_xy .xor (fun _ _ => rfl) (fun _ _ => rfl) rfl rfl,
    OpcodeRow.covered_xy .addReg (fun _ _ => rfl) (fun _ _ => rfl) rfl rfl,
    OpcodeRow.covered_xy .sub (fun _ _ => rfl) (fun _ _ => rfl) rfl rfl,
    OpcodeRow.covered_xy .shr (fun _ _ => rfl) (fun _ _ => rfl) rfl rfl,
    OpcodeRow.covered_xy .subn (fun _ _ => rfl) (fun _ _ => rfl) rfl rfl,
    OpcodeRow.covered_xy .shl (fun _ _ => rfl) (fun _ _ => rfl) rfl rfl,
    OpcodeRow.covered_xy .sneReg (fun _ _ => rfl) (fun _ _ => rfl) rfl rfl,
    OpcodeRow.covered_nnn .ldI (fun _ => rfl) (fun _ => rfl) rfl,
    OpcodeRow.covered_nnn .jpV0 (fun _ => rfl) (fun _ => rfl) rfl,
    OpcodeRow.covered_xnn .rnd (fun _ _ => rfl) (fun _ _ => rfl) rfl,
    OpcodeRow.covered_xyn .drw (fun _ _ _ => rfl) (fun _ _ _ => rfl) rfl,
    OpcodeRow.covered_x .skp (fun _ => rfl) (fun _ => rfl) rfl rfl,
    OpcodeRow.covered_x .sknp (fun _ => rfl) (fun _ => rfl) rfl rfl,
    OpcodeRow.covered_x .ldVxDt (fun _ => rfl) (fun _ => rfl) rfl rfl,
    OpcodeRow.covered_x .ldVxK (fun _ => rfl) (fun _ => rfl) rfl rfl,
    OpcodeRow.covered_x .ldDtVx (fun _ => rfl) (fun _ => rfl) rfl rfl,
    OpcodeRow.covered_x .ldStVx (fun _ => rfl) (fun _ => rfl) rfl rfl,
    OpcodeRow.covered_x .addI (fun _ => rfl) (fun _ => rfl) rfl rfl,
    OpcodeRow.covered_x .ldF (fun _ => rfl) (fun _ => rfl) rfl rfl,
    OpcodeRow.covered_x .ldB (fun _ => rfl) (fun _ => rfl) rfl rfl,
    OpcodeRow.covered_x .ldMemVx (fun _ => rfl) (fun _ => rfl) rfl rfl,
    OpcodeRow.covered_x .ldVxMem (fun _ => rfl) (fun _ => rfl) rfl rfl,
    List.forall_mem_nil _⟩

/-- The word of every instruction selects a row with the instruction's mnemonic. -/
theorem encode_selects_row (i : Instr) : Laws.EncodesItsRow.Statement i :=
  match i with
  | .cls => Laws.EncodesItsRow.cls
  | .ret => Laws.EncodesItsRow.ret
  | .jp nnn => Laws.EncodesItsRow.jp nnn
  | .call nnn => Laws.EncodesItsRow.call nnn
  | .seImm x nn => Laws.EncodesItsRow.seImm x nn
  | .sneImm x nn => Laws.EncodesItsRow.sneImm x nn
  | .seReg x y => Laws.EncodesItsRow.seReg x y
  | .ldImm x nn => Laws.EncodesItsRow.ldImm x nn
  | .addImm x nn => Laws.EncodesItsRow.addImm x nn
  | .ldReg x y => Laws.EncodesItsRow.ldReg x y
  | .or x y => Laws.EncodesItsRow.or x y
  | .and x y => Laws.EncodesItsRow.and x y
  | .xor x y => Laws.EncodesItsRow.xor x y
  | .addReg x y => Laws.EncodesItsRow.addReg x y
  | .sub x y => Laws.EncodesItsRow.sub x y
  | .shr x y => Laws.EncodesItsRow.shr x y
  | .subn x y => Laws.EncodesItsRow.subn x y
  | .shl x y => Laws.EncodesItsRow.shl x y
  | .sneReg x y => Laws.EncodesItsRow.sneReg x y
  | .ldI nnn => Laws.EncodesItsRow.ldI nnn
  | .jpV0 nnn => Laws.EncodesItsRow.jpV0 nnn
  | .rnd x nn => Laws.EncodesItsRow.rnd x nn
  | .drw x y n => Laws.EncodesItsRow.drw x y n
  | .skp x => Laws.EncodesItsRow.skp x
  | .sknp x => Laws.EncodesItsRow.sknp x
  | .ldVxDt x => Laws.EncodesItsRow.ldVxDt x
  | .ldVxK x => Laws.EncodesItsRow.ldVxK x
  | .ldDtVx x => Laws.EncodesItsRow.ldDtVx x
  | .ldStVx x => Laws.EncodesItsRow.ldStVx x
  | .addI x => Laws.EncodesItsRow.addI x
  | .ldF x => Laws.EncodesItsRow.ldF x
  | .ldB x => Laws.EncodesItsRow.ldB x
  | .ldMemVx x => Laws.EncodesItsRow.ldMemVx x
  | .ldVxMem x => Laws.EncodesItsRow.ldVxMem x

theorem supportedWord_iff {w : Word} : supportedWord w = true ↔ ∃ r ∈ opcodeMap, r.selects w = true :=
  List.any_eq_true

theorem supportedWord_encode (i : Instr) : supportedWord (encode i) = true := by
  obtain ⟨r, hr, -, hsel⟩ := encode_selects_row i
  exact supportedWord_iff.2 ⟨r, hr, hsel⟩

theorem exists_decode_of_selects {w : Word} {r : OpcodeRow} (hr : r ∈ opcodeMap) (hsel : r.selects w = true) :
    ∃ i : Instr, i.mnemonic = r.mnemonic ∧ decode w = .ok i := by
  obtain ⟨i, hm, rfl⟩ := opcodeMap_covered r hr w hsel
  exact ⟨i, hm, decode_encode i⟩

/-- Two patterns that differ where both masks look share no word. -/
theorem OpcodeRow.not_selects_both {p q : OpcodeRow} (h : p.pattern &&& q.mask ≠ q.pattern &&& p.mask)
    (w : Word) : ¬ (p.selects w = true ∧ q.selects w = true) := by
  rintro ⟨hp, hq⟩
  rw [OpcodeRow.selects_iff] at hp hq
  apply h
  rw [← hp, ← hq, BitVec.and_assoc, BitVec.and_assoc, BitVec.and_comm p.mask]

end Sys2Proof

open Sys2Proof Sys2Proof.Machine

/-- Settles O2: the fields read back from each format are its operands. -/
theorem decodeOfEncode : Obligations.DecodeOfEncode := decode_encode

/-- Settles O3: the decoder reads every field that its formats carry, so the word is rebuilt from the
operands (`decode_answersFor`). -/
theorem encodeOfDecode : Obligations.EncodeOfDecode := fun _ _ => encode_of_decode

/-- Settles O4: an accepted word is an encoding, which selects its row; a word that selects a row is an
encoding, which the decoder accepts. -/
theorem decoderIsTotal : Obligations.DecoderIsTotal := by
  intro w
  cases hd : decode w with
  | ok i =>
    have hsup : supportedWord w = true := encode_of_decode hd ▸ supportedWord_encode i
    exact .inl ⟨hsup, i, rfl⟩
  | error e =>
    have hsup : supportedWord w ≠ true := fun hsup => by
      obtain ⟨r, hr, hsel⟩ := supportedWord_iff.1 hsup
      obtain ⟨i, -, hok⟩ := exists_decode_of_selects hr hsel
      exact nomatch hd.symm.trans hok
    have he : e = .unsupportedOpcode w := by
      have hw := decode_answersFor w
      rwa [hd] at hw
    exact .inr ⟨Bool.eq_false_of_not_eq_true hsup, congrArg _ he⟩

/-- Settles O5: any two rows of the map differ in a bit that both masks look at. -/
theorem opcodeRowsDisjoint : Obligations.OpcodeRowsDisjoint := by
  have hdiffer : opcodeMap.Pairwise fun p q => p.pattern &&& q.mask ≠ q.pattern &&& p.mask := by decide
  exact hdiffer.imp OpcodeRow.not_selects_both

/-- Settles O6: the row's own instruction has the word as its encoding, and a word decodes to one
instruction only. -/
theorem decodePicksSelectedRow : Obligations.DecodePicksSelectedRow := by
  intro w i row hd hrow hsel
  obtain ⟨j, hm, hdj⟩ := exists_decode_of_selects hrow hsel
  obtain rfl := Except.ok.inj (hd.symm.trans hdj)
  exact hm.symm

end

section
/-! The shifts (42_alu.md R151, R153), and the state after an instruction that writes VF and then its
destination. -/

namespace Sys2Proof.Machine

/-! ### VF, then Vx -/

/-- pc advanced, the flag in VF, then the value in Vx, which is final for x = F (R106, D9). -/
def State.writeFlagDest (s : State) (x : Reg) (flag b : Byte) : State :=
  (s.advance.setV vf flag).setV x b

theorem exec_shr (x y : Reg) (s : State) :
    exec (.shr x y) s = .next (s.writeFlagDest x (shrFlag (s.v x)) (s.v x >>> 1)) := rfl

theorem exec_shl (x y : Reg) (s : State) :
    exec (.shl x y) s = .next (s.writeFlagDest x (shlFlag (s.v x)) (s.v x <<< 1)) := rfl

section
variable (s : State) {x : Reg} (flag b : Byte)

theorem State.writeFlagDest_v_dest : (s.writeFlagDest x flag b).v x = b :=
  State.v_setV_same _ _ _

theorem State.writeFlagDest_v_vf (hx : x ≠ vf) : (s.writeFlagDest x flag b).v vf = flag := by
  rw [State.writeFlagDest, State.v_setV_other hx.symm, State.v_setV_same]

theorem State.writeFlagDest_pc : (s.writeFlagDest x flag b).pc = s.pc + 2 := rfl

theorem State.writeFlagDest_frame : Frame { regs := [x, vf] } s (s.writeFlagDest x flag b) :=
  ((Frame.refl _ s).advance.setV (.tail _ (.head _)) flag).setV (.head _) b

end

/-! ### The bit shifted out -/

theorem toNat_shrFlag (a : Byte) : (shrFlag a).toNat = a.toNat % 2 := by
  rw [shrFlag, BitVec.toNat_and]
  exact Nat.and_one_is_mod _

theorem toNat_shlFlag (a : Byte) : (shlFlag a).toNat = a.toNat / 128 := by
  have hlt := a.isLt
  have hbit : (shlFlag a).toNat = (a >>> 7).toNat % 2 := toNat_shrFlag (a >>> 7)
  rw [hbit, BitVec.toNat_ushiftRight, Nat.shiftRight_eq_div_pow]
  omega

end Sys2Proof.Machine

open Sys2Proof Sys2Proof.Machine

/-- Settles O26: the flag is the bit shifted out, and the shifted value is written after it
(`State.writeFlagDest`). -/
theorem shiftsByOne : Obligations.ShiftsByOne := by
  intro x y s
  refine ⟨?_, ?_, ⟨_, exec_shr x y s, ?_, fun hx => ?_, s.writeFlagDest_pc _ _, s.writeFlagDest_frame _ _⟩,
    ⟨_, exec_shl x y s, ?_, fun hx => ?_, s.writeFlagDest_pc _ _, s.writeFlagDest_frame _ _⟩⟩
  · rw [encode, formXYN_toNat]
    simp only [BitVec.reduceToNat]
    omega
  · rw [encode, formXYN_toNat]
    simp only [BitVec.reduceToNat]
    omega
  · rw [State.writeFlagDest_v_dest, BitVec.toNat_ushiftRight, Nat.shiftRight_one]
  · rw [State.writeFlagDest_v_vf _ _ _ hx, toNat_shrFlag]
  · rw [State.writeFlagDest_v_dest, BitVec.toNat_shiftLeft, Nat.shiftLeft_eq, pow_one]
  · rw [State.writeFlagDest_v_vf _ _ _ hx, toNat_shlFlag]

end

section
/-! The ways a step ends (40_cycle.md R100–R108): the fault entry of a fetch or of an unsupported word, or the
instruction decoded at pc followed by the tick and the use of one input. -/

namespace Sys2Proof.Machine

/-! ### The state after a fault, and after the end of a step -/

/-- The fault entry writes the record and `halted`, and nothing else (R236). -/
theorem State.raise_takesFault (s : State) (c : FaultCause) (w : Word) (a : Nat) :
    TakesFault s (s.raise c w a) c w a where
  frame := Frame.refl _ _
  pc := rfl

section
variable (s : State)

theorem State.nextInput_inputs : s.nextInput.inputs = s.inputs.tail := by
  cases h : s.inputs with
  | nil => exact (State.nextInput_nil h).1
  | cons q qs => exact (State.nextInput_cons h).1

theorem State.nextInput_drawn : s.nextInput.drawn = if s.inputs = [] then s.drawn + 1 else s.drawn := by
  cases h : s.inputs with
  | nil => exact (State.nextInput_nil h).2
  | cons q qs => exact (State.nextInput_cons h).2

/-- The tick and the use of an input touch four fields only. -/
theorem State.tickTimers_nextInput_eq : s.tickTimers.nextInput =
    { s with
      DT := s.tickTimers.nextInput.DT
      ST := s.tickTimers.nextInput.ST
      inputs := s.tickTimers.nextInput.inputs
      drawn := s.tickTimers.nextInput.drawn } := by
  unfold State.nextInput
  split <;> rfl

end

/-! ### The branches of a step -/

section
variable {s : State}

theorem Runs.step_eq {i : Instr} (h : Runs s i) : step s = finish (exec i s) :=
  step_of_decoded h.running (State.fetch_eq_ok.2 ⟨h.fetchable, rfl⟩) h.decoded

/-- An instruction that did not halt the machine raised no fault, so it kept to its frame. -/
theorem exec_frame_of_running {i : Instr} {u : State} (h : exec i s = .next u) (hu : u.halted = false) :
    Frame (writesOf i s) s u := by
  obtain ⟨_, _, -, rfl⟩ | hframe := (exec_frame i s).of_next h
  · exact nomatch hu
  · exact hframe

/-- A machine that is not halted answers a next state, on each of the branches of R110. -/
theorem exists_step_of_running (h : s.halted = false) : ∃ t, step s = .next t := by
  cases hfetch : s.fetch with
  | error a => exact ⟨_, step_of_fetch_error h hfetch⟩
  | ok w =>
    cases hdec : decode w with
    | error e => exact ⟨_, step_of_unsupported h hfetch hdec⟩
    | ok i =>
      obtain ⟨u, hexec, -⟩ := exec_frame i s
      exact ⟨u.endStep, by rw [step_of_decoded h hfetch hdec, hexec, finish]⟩

end

end Sys2Proof.Machine

open Sys2Proof Sys2Proof.Machine

/-- Settles O7: the fetch answers the word at pc (`Runs.step_eq`). -/
theorem stepRunsDecodedInstr : Obligations.StepRunsDecodedInstr := fun _ _ => Runs.step_eq

/-- Settles O8: the instruction kept the inputs in its frame, so the end of the step ticks and uses up what
the state before the step had. -/
theorem stepEndsWithTick : Obligations.StepEndsWithTick := by
  intro s i u hruns hexec hu
  have hframe : Frame (writesOf i s) s u := exec_frame_of_running hexec hu
  have hstep : step s = .next u.tickTimers.nextInput := by
    rw [hruns.step_eq, hexec, finish, State.endStep_of_running hu]
  refine ⟨_, hstep, ?_, ?_, ?_, ?_, u.tickTimers_nextInput_eq⟩
  · rw [State.nextInput_DT, State.tickTimers_DT, countdown_toNat, hframe.tick_eq]
  · rw [State.nextInput_ST, State.tickTimers_ST, countdown_toNat, hframe.tick_eq]
  · rw [State.nextInput_inputs, State.tickTimers_inputs, hframe.inputs]
  · rw [State.nextInput_drawn, State.tickTimers_inputs, State.tickTimers_drawn, hframe.inputs, hframe.drawn]

/-- Settles O9: the first branch of the step. -/
theorem haltedTakesNoStep : Obligations.HaltedTakesNoStep := fun _ => step_of_halted

/-- Settles O10: a next state comes from one of the branches of a running machine (`step_cases`), each of which
answers one (`exists_step_of_running`). -/
theorem stepAnswersWhileRunning : Obligations.StepAnswersWhileRunning :=
  fun _ => ⟨fun ⟨_, h⟩ => (step_cases h).1, exists_step_of_running⟩

/-- Settles O11: the two bytes at pc do not both lie in the space, and the fetch names the first that does
not. -/
theorem fetchOutOfRangeFaults : Obligations.FetchOutOfRangeFaults := by
  intro s hrun hpc
  exact ⟨_, step_of_fetch_error hrun (State.fetch_eq_error.2 ⟨hpc, rfl⟩), s.raise_takesFault _ _ _⟩

/-- Settles O12: the decoder rejects a word that selects no row (`decoderIsTotal`). -/
theorem unsupportedOpcodeFaults : Obligations.UnsupportedOpcodeFaults := by
  intro s hrun hpc hsup
  have hfetch : s.fetch = .ok s.wordAtPc := State.fetch_eq_ok.2 ⟨hpc, rfl⟩
  obtain ⟨hsup', -⟩ | ⟨-, hdec⟩ := decoderIsTotal s.wordAtPc
  · exact nomatch hsup.symm.trans hsup'
  · exact ⟨_, step_of_unsupported hrun hfetch hdec, s.raise_takesFault _ _ _⟩

end

section
/-! Control flow (41_control_flow.md): RET and CALL on each height of the stack (R121, R123), the jump targets
as numbers (R122, R128), and the pc of a skip (R120). -/

namespace Sys2Proof.Machine

/-! ### RET and CALL -/

section
variable {s : State} {nnn : Addr} {k : Fin 16}

theorem exec_ret_of_empty (h : s.sp.val = 0) : exec .ret s = raiseIn s .stackUnderflow .ret 0 := by
  rw [exec, execRet, s.pop_eq_none.2 h]

theorem exec_ret_of_sp (h : s.sp.val = k.val + 1) :
    exec .ret s = .next ({ s with sp := k.castSucc }.jump s.stack[k]) := by
  rw [exec, execRet]
  cases hpop : s.pop with
  | none =>
    have h0 : s.sp.val = 0 := s.pop_eq_none.1 hpop
    omega
  | some p =>
    obtain ⟨j, hj, hv, ht⟩ := State.pop_eq_some (v := p.1) (t := p.2) hpop
    obtain rfl : j = k := Fin.ext (by omega)
    simp only [hv, ht]

theorem exec_call_of_full (h : s.sp.val = 16) :
    exec (.call nnn) s = raiseIn s .stackOverflow (.call nnn) 0 := by
  rw [exec, execCall, (s.push_eq_none _).2 h]

/-- The state CALL leaves: pc0 + 2 pushed at the old sp `k`, and pc at the target. -/
def State.called (s : State) (k : Fin 16) (nnn : Addr) : State :=
  { s with stack := s.stack.set k.val (s.pc + 2) k.isLt, sp := k.succ }.jump (addrWord nnn)

theorem exec_call_of_sp (h : s.sp.val = k.val) : exec (.call nnn) s = .next (s.called k nnn) := by
  rw [exec, execCall]
  cases hpush : s.push s.advance.pc with
  | none =>
    have h16 : s.sp.val = 16 := (s.push_eq_none _).1 hpush
    omega
  | some t =>
    obtain ⟨j, hj, rfl⟩ := State.push_eq_some hpush
    obtain rfl : j = k := Fin.ext (by omega)
    rfl

end

section
variable (s : State) (k : Fin 16) (nnn : Addr)

theorem State.called_stack_same : (s.called k nnn).stack[k] = s.pc + 2 :=
  Vector.getElem_set_self _

theorem State.called_stack_other {j : Fin 16} (h : j ≠ k) : (s.called k nnn).stack[j] = s.stack[j] :=
  Vector.getElem_set_ne k.isLt j.isLt fun he => h (Fin.ext he.symm)

theorem State.called_frame : Frame { callStack := true } s (s.called k nnn) :=
  ((Frame.refl _ s).setCallStack rfl _ _).jump _

end

/-! ### Jump targets -/

theorem toNat_addrWord (nnn : Addr) : (addrWord nnn).toNat = nnn.toNat :=
  BitVec.toNat_setWidth_of_le (by decide)

/-- The sum of R128 fits in 16 bits, so it is not reduced. -/
theorem toNat_offsetTarget (v0 : Byte) (nnn : Addr) :
    (offsetTarget v0 nnn).toNat = v0.toNat + nnn.toNat := by
  have := v0.isLt
  have := nnn.isLt
  rw [offsetTarget, BitVec.toNat_ofNat]
  omega

/-! ### Skips -/

/-- An instruction that only skips goes to pc0 + 4 or pc0 + 2, by a condition `c` that decides `p` (R120). -/
theorem exists_next_of_skip {s : State} {i : Instr} {c : Bool} {p : Prop} [Decidable p]
    (hexec : exec i s = .next (s.advance.skipIf c)) (hc : c = true ↔ p) :
    ∃ t, exec i s = .next t ∧ t.pc = s.pc + (if p then 4 else 2) ∧ Frame {} s t := by
  refine ⟨_, hexec, ?_, (Frame.refl _ s).advance.skipIf c⟩
  rw [State.skipIf_pc, State.advance_pc]
  by_cases hp : p
  · rw [if_pos (hc.2 hp), if_pos hp, BitVec.add_assoc]
    rfl
  · rw [if_neg (mt hc.1 hp), if_neg hp]

theorem byte_beq_iff (a b : Byte) : (a == b) = true ↔ a.toNat = b.toNat := by
  rw [beq_iff_eq, BitVec.toNat_inj]

theorem byte_bne_iff (a b : Byte) : (a != b) = true ↔ a.toNat ≠ b.toNat := by
  rw [bne_iff_ne, Ne, Ne, BitVec.toNat_inj]

end Sys2Proof.Machine

open Sys2Proof Sys2Proof.Machine

/-- Settles O15: the pop fails exactly on the empty stack, and otherwise answers the entry below sp. -/
theorem retPopsOrUnderflows : Obligations.RetPopsOrUnderflows := by
  refine ⟨rfl, fun s hsp => ?_, fun s k hsp => ?_⟩
  · exact ⟨_, exec_ret_of_empty hsp, s.raise_takesFault _ _ _⟩
  · exact ⟨_, exec_ret_of_sp hsp, rfl, rfl, rfl, ((Frame.refl _ s).setCallStack rfl _ _).jump _⟩

/-- Settles O16: the push fails exactly on the full stack, and otherwise writes the entry at sp
(`State.called`). -/
theorem callPushesOrOverflows : Obligations.CallPushesOrOverflows := by
  refine fun nnn s => ⟨formNnn_toNat 0x2 nnn, fun hsp => ?_, fun k hsp => ?_⟩
  · exact ⟨_, exec_call_of_full hsp, s.raise_takesFault _ _ _⟩
  · exact ⟨s.called k nnn, exec_call_of_sp hsp, rfl, s.called_stack_same k nnn,
      fun _ => s.called_stack_other k nnn, toNat_addrWord nnn, s.called_frame k nnn⟩

/-- Settles O20: the RET pops the entry that the CALL pushed at the old sp. -/
theorem callThenRetRestores : Obligations.CallThenRetRestores := by
  intro nnn s hsp
  obtain ⟨k, hk⟩ : ∃ k : Fin 16, s.sp.val = k.val := ⟨⟨s.sp.val, hsp⟩, rfl⟩
  have hret : exec .ret (s.called k nnn) = .next _ := exec_ret_of_sp (k := k) rfl
  refine ⟨_, _, exec_call_of_sp hk, hret, s.called_stack_same k nnn, Fin.ext hk.symm, fun j hj => ?_,
    ((s.called_frame k nnn).setCallStack rfl _ _).jump _⟩
  have hjk : j ≠ k := fun he => hj (he ▸ hk.symm)
  exact s.called_stack_other k nnn hjk

/-- Settles O17: both targets fit in 16 bits. -/
theorem jumpsWriteTarget : Obligations.JumpsWriteTarget := by
  intro nnn s
  have hframe (p : Word) : Frame {} s (s.advance.jump p) := (Frame.refl _ s).advance.jump p
  exact ⟨formNnn_toNat 0x1 nnn, formNnn_toNat 0xB nnn, ⟨_, rfl, toNat_addrWord nnn, hframe _⟩,
    ⟨_, rfl, toNat_offsetTarget _ nnn, hframe _⟩⟩

/-- Settles O18: each is one skip, on equality and on inequality (`exists_next_of_skip`). -/
theorem immediateSkips : Obligations.ImmediateSkips := fun x nn _ =>
  ⟨formXNn_toNat 0x3 x nn, formXNn_toNat 0x4 x nn, exists_next_of_skip rfl (byte_beq_iff _ _),
    exists_next_of_skip rfl (byte_bne_iff _ _)⟩

/-- Settles O19: each is one skip, on equality and on inequality (`exists_next_of_skip`). -/
theorem registerSkips : Obligations.RegisterSkips := fun x y _ =>
  ⟨formXYN_toNat 0x5 x y 0x0, formXYN_toNat 0x9 x y 0x0, exists_next_of_skip rfl (byte_beq_iff _ _),
    exists_next_of_skip rfl (byte_bne_iff _ _)⟩

end

section
/-! Arithmetic and logic (42_alu.md): the state after an instruction that writes its destination only (R141–R146,
R154), the flags as comparisons of numbers (R149, R150), and SUBN in both modes (R152). -/

namespace Sys2Proof.Machine

/-! ### The words 8xyn -/

theorem formXYN_8_toNat (x y : Reg) (n : Nibble) :
    (formXYN 0x8 x y n).toNat = 0x8000 + n.toNat + 0x100 * x.val + 0x10 * y.val := by
  have h8 : (0x8 : Nibble).toNat = 8 := rfl
  rw [formXYN_toNat, h8]
  omega

/-! ### The destination alone -/

/-- pc advanced, and the value in Vx. -/
def State.writeDest (s : State) (x : Reg) (b : Byte) : State := s.advance.setV x b

section
variable (s : State) (x : Reg) (b : Byte)

theorem State.writeDest_v_dest : (s.writeDest x b).v x = b := State.v_setV_same _ _ _

theorem State.writeDest_pc : (s.writeDest x b).pc = s.pc + 2 := rfl

theorem State.writeDest_frame : Frame { regs := [x] } s (s.writeDest x b) :=
  (Frame.refl _ s).advance.setV (.head _) b

end

/-- An instruction whose one write is `b` in Vx, for a fact `P` that follows from that value. -/
theorem exists_next_of_writeDest {s : State} {i : Instr} {x : Reg} {b : Byte} {P : State → Prop}
    (hexec : exec i s = .next (s.writeDest x b)) (hP : ∀ t, t.v x = b → P t) :
    ∃ t, exec i s = .next t ∧ t.pc = s.pc + 2 ∧ Frame { regs := [x] } s t ∧ P t :=
  ⟨_, hexec, s.writeDest_pc x b, s.writeDest_frame x b, hP _ (s.writeDest_v_dest x b)⟩

/-! ### Flags and differences as numbers -/

theorem flagByte_decide (p : Prop) [Decidable p] : flagByte (decide p) = if p then 1 else 0 := by
  by_cases hp : p <;> simp [hp]

theorem carryFlag_eq (a b : Byte) : carryFlag a b = if 255 < a.toNat + b.toNat then 1 else 0 :=
  flagByte_decide _

theorem greaterFlag_eq (a b : Byte) : greaterFlag a b = if b.toNat < a.toNat then 1 else 0 :=
  flagByte_decide _

/-- Two flags differ exactly when their conditions do. -/
theorem flag_ne_iff (p q : Prop) [Decidable p] [Decidable q] :
    (if p then (1 : Byte) else 0) ≠ (if q then 1 else 0) ↔ ¬ (p ↔ q) := by
  by_cases hp : p <;> by_cases hq : q <;> simp [hp, hq]

/-- The difference is the one modulo 256, with the minuend first. -/
theorem byte_toNat_sub (a b : Byte) : (a - b).toNat = (a.toNat + 256 - b.toNat) % 256 := by
  have := b.isLt
  rw [BitVec.toNat_sub]
  omega

/-! ### SUBN: Vx, then VF -/

/-- pc advanced and the reverse difference in Vx: the registers that REFERENCE compares (R152). -/
def State.subnDest (s : State) (x y : Reg) : State := s.writeDest x (s.v y - s.v x)

/-- The state SUBN leaves: the flag of the machine's mode comes after Vx. -/
def State.subnDone (s : State) (x y : Reg) : State :=
  (s.subnDest x y).setV vf (subnFlagOf s.subnFlag (s.v x) (s.v y) x y (s.subnDest x y))

theorem exec_subn (x y : Reg) (s : State) : exec (.subn x y) s = .next (s.subnDone x y) := rfl

section
variable (s : State) (x y : Reg)

theorem State.subnDone_pc : (s.subnDone x y).pc = s.pc + 2 := rfl

theorem State.subnDone_frame : Frame { regs := [x, vf] } s (s.subnDone x y) :=
  ((Frame.refl _ s).advance.setV (.head _) _).setV (.tail _ (.head _)) _

theorem State.subnDone_v_dest (hx : x ≠ vf) : (s.subnDone x y).v x = s.v y - s.v x := by
  rw [State.subnDone, State.v_setV_other hx, State.subnDest, State.writeDest_v_dest]

theorem State.subnDone_v_vf :
    (s.subnDone x y).v vf = subnFlagOf s.subnFlag (s.v x) (s.v y) x y (s.subnDest x y) :=
  State.v_setV_same _ _ _

/-- REFERENCE compares Vy with the new Vx, which is Vy itself for x = y. -/
theorem subnFlagOf_reference (a b : Byte) :
    subnFlagOf .reference a b x y (s.subnDest x y) =
      if x ≠ y ∧ (s.v y - s.v x).toNat < (s.v y).toNat then 1 else 0 := by
  rw [subnFlagOf, greaterFlag_eq, State.subnDest, State.writeDest_v_dest]
  by_cases hxy : x = y
  · subst hxy
    simp [State.writeDest_v_dest]
  · have hy : (s.writeDest x (s.v y - s.v x)).v y = s.v y := State.v_setV_other (Ne.symm hxy)
    simp [hy, hxy]

end

end Sys2Proof.Machine

open Sys2Proof Sys2Proof.Machine

/-- Settles O24: the carry is written before the sum (`State.writeFlagDest`). -/
theorem addRegisterCarries : Obligations.AddRegisterCarries := by
  refine fun x y s => ⟨formXYN_8_toNat x y 0x4, s.writeFlagDest x (carryFlag (s.v x) (s.v y)) (s.v x + s.v y),
    rfl, ?_, fun hx => ?_, s.writeFlagDest_pc _ _, s.writeFlagDest_frame _ _⟩
  · rw [State.writeFlagDest_v_dest, BitVec.toNat_add]
  · rw [State.writeFlagDest_v_vf _ _ _ hx, carryFlag_eq]

/-- Settles O25: the comparison is written before the difference (`State.writeFlagDest`). -/
theorem subBorrows : Obligations.SubBorrows := by
  refine fun x y s => ⟨formXYN_8_toNat x y 0x5, s.writeFlagDest x (greaterFlag (s.v x) (s.v y)) (s.v x - s.v y),
    rfl, ?_, fun hx => ?_, s.writeFlagDest_pc _ _, s.writeFlagDest_frame _ _⟩
  · rw [State.writeFlagDest_v_dest, byte_toNat_sub]
  · rw [State.writeFlagDest_v_vf _ _ _ hx, greaterFlag_eq]

/-- Settles O27: the flag is written after the difference (`State.subnDone`), in each mode on its own
operands. -/
theorem subnInBothModes : Obligations.SubnInBothModes := by
  refine fun x y s => ⟨formXYN_8_toNat x y 0x7, _, exec_subn x y s, fun hx => ?_, fun hmode => ?_,
    fun hmode => ?_, s.subnDone_pc x y, s.subnDone_frame x y⟩
  · rw [s.subnDone_v_dest x y hx, byte_toNat_sub]
  · rw [State.subnDone_v_vf, hmode, subnFlagOf, greaterFlag_eq]
  · rw [State.subnDone_v_vf, hmode, subnFlagOf_reference, byte_toNat_sub]

/-- Settles O28: both modes write the same difference, and their two comparisons (`subnInBothModes`) disagree
exactly where the spec says. -/
theorem subnModesDiffer : Obligations.SubnModesDiffer := by
  intro x y s hxy hx _
  obtain ⟨-, t, ht, htx, htf, -⟩ := subnInBothModes x y { s with subnFlag := .canonical }
  obtain ⟨-, u, hu, hux, -, huf, -⟩ := subnInBothModes x y { s with subnFlag := .reference }
  have hflags : t.v vf ≠ u.v vf ↔ ¬ ((s.v x).toNat < (s.v y).toNat ↔
      x ≠ y ∧ ((s.v y).toNat + 256 - (s.v x).toNat) % 256 < (s.v y).toNat) := by
    rw [htf rfl, huf rfl]
    exact flag_ne_iff _ _
  have := (s.v x).isLt
  have := (s.v y).isLt
  refine ⟨t, u, ht, hu, BitVec.eq_of_toNat_eq ((htx hx).trans (hux hx).symm), hflags.trans ?_⟩
  rw [and_iff_right hxy, ← BitVec.toNat_inj]
  omega

/-- Settles O21: each writes Vx alone. -/
theorem registerLoads : Obligations.RegisterLoads := fun x y nn s =>
  ⟨formXNn_toNat 0x6 x nn, formXYN_8_toNat x y 0x0,
    ⟨_, rfl, s.writeDest_v_dest x _, s.writeDest_pc x _, s.writeDest_frame x _⟩,
    ⟨_, rfl, s.writeDest_v_dest x _, s.writeDest_pc x _, s.writeDest_frame x _⟩⟩

/-- Settles O22: the sum of two bytes wraps, and Vx alone is written. -/
theorem addImmediateWraps : Obligations.AddImmediateWraps := by
  refine fun x nn s => ⟨formXNn_toNat 0x7 x nn, s.writeDest x (s.v x + nn), rfl, ?_, s.writeDest_pc x _,
    s.writeDest_frame x _⟩
  rw [State.writeDest_v_dest, BitVec.toNat_add]

/-- Settles O23: each writes Vx alone (`exists_next_of_writeDest`), with the value taken bit by bit. -/
theorem logicIsBitwise : Obligations.LogicIsBitwise := fun x y s =>
  ⟨formXYN_8_toNat x y 0x1, formXYN_8_toNat x y 0x2, formXYN_8_toNat x y 0x3,
    exists_next_of_writeDest rfl fun _ hx _ _ => by rw [hx, BitVec.getLsbD_or],
    exists_next_of_writeDest rfl fun _ hx _ _ => by rw [hx, BitVec.getLsbD_and],
    exists_next_of_writeDest rfl fun _ hx _ _ => by rw [hx, BitVec.getLsbD_xor]⟩

/-- Settles O29: the random byte of the step's input is masked, whatever it is. -/
theorem randomIsMasked : Obligations.RandomIsMasked := fun x nn s =>
  ⟨formXNn_toNat 0xC x nn,
    exists_next_of_writeDest rfl fun _ hx _ _ => by rw [hx, BitVec.getLsbD_and, State.rnd]⟩

end

section
/-! The index register and the memory transfers (43_index_memory.md R170–R176): the new values of I, the fault
of a range that leaves the space, and the registers after a block was loaded. -/

namespace Sys2Proof.Machine

/-! ### The words Fxnn -/

theorem formXNn_F_toNat (x : Reg) (nn : Byte) :
    (formXNn 0xF x nn).toNat = 0xF000 + nn.toNat + 0x100 * x.val := by
  have hF : (0xF : Nibble).toNat = 15 := rfl
  rw [formXNn_toNat, hF]
  omega

/-! ### The index register -/

/-- I wraps at 65536 (D6). -/
theorem State.toNat_indexPlus (s : State) (k : Nat) :
    (s.indexPlus k).toNat = (s.I.toNat + k) % 65536 := by
  rw [State.indexPlus, BitVec.toNat_add, BitVec.toNat_ofNat, Nat.add_mod_mod]

/-- Five times a byte fits in 16 bits, so it is not reduced. -/
theorem toNat_glyphAddress (v : Byte) : (glyphAddress v).toNat = v.toNat * 5 := by
  have := v.isLt
  rw [glyphAddress, BitVec.toNat_ofNat]
  omega

/-- An instruction whose one write is I. -/
theorem exists_next_of_setI {s : State} {i : Instr} {v : Word} {n : Nat}
    (hexec : exec i s = .next (s.advance.setI v)) (hv : v.toNat = n) :
    ∃ t, exec i s = .next t ∧ t.I.toNat = n ∧ t.pc = s.pc + 2 ∧ Frame { index := true } s t :=
  ⟨_, hexec, hv, rfl, (Frame.refl _ s).advance.setI rfl v⟩

/-! ### Transfers -/

/-- A transfer of k + 1 bytes whose last address is beyond 4095 takes the fault, whatever its body (R170). -/
theorem exists_withRange_takesFault {base k : Nat} (h : 4095 < base + k) (s : State) (i : Instr)
    (body : State) : ∃ t, withRange s i base (k + 1) body = .next t ∧
      TakesFault s t .dataOutOfRange (encode i) (if 4095 < base then base else 4096) := by
  obtain ⟨hin, -⟩ | ⟨-, hfault⟩ := withRange_cases s i base (k + 1) body
  · omega
  · exact ⟨_, hfault, s.raise_takesFault _ _ _⟩

section
variable (s : State) (x : Reg)

/-- The state LD B leaves when its three addresses lie in the space (R174). -/
def State.storedDigits : State := s.advance.storeBytes s.base (bcdDigits (s.v x))

/-- Byte k of the stored digits reads as digit k. -/
theorem State.memRead_storedDigits (hwf : s.mem.wf) (h : s.I.toNat + 2 ≤ 4095) (k : Fin 3) :
    (s.storedDigits x).memRead (s.I.toNat + k.val) = (bcdDigits (s.v x))[k] := by
  have hlen : (bcdDigits (s.v x)).length = 3 := rfl
  exact s.advance.memRead_storeBytes s.base (bcdDigits (s.v x)) k.val hwf
    (by rw [hlen, State.base]; omega) k.isLt

theorem State.storedDigits_frame :
    Frame { memBase := s.I.toNat, memCount := 3 } s (s.storedDigits x) :=
  (Frame.refl _ s).advance.storeBytes _ _ ⟨le_rfl, le_rfl⟩

/-- The state LD [I], Vx leaves when its block lies in the space (R175). -/
def State.storedBlock : State :=
  (s.advance.storeBytes s.base (s.regBlock x)).setI (s.indexPlus (blockCount x))

theorem State.storedBlock_frame :
    Frame { index := true, memBase := s.I.toNat, memCount := x.val + 1 } s (s.storedBlock x) :=
  ((Frame.refl _ s).advance.storeBytes s.base _ ⟨le_rfl, by rw [s.length_regBlock]; rfl⟩).setI rfl _

/-- The state LD Vx, [I] leaves when its block lies in the space (R176). -/
def State.loadedBlock : State :=
  (s.advance.setBlock 0 (s.loadBytes s.base (blockCount x))).setI (s.indexPlus (blockCount x))

/-- Each loaded register holds its byte of the block. -/
theorem State.loadedBlock_v {k : Reg} (hk : k ≤ x) :
    (s.loadedBlock x).v k = s.memRead (s.I.toNat + k.val) := by
  have hkx : k.val ≤ x.val := hk
  have hblock : 0 ≤ k.val ∧ k.val < 0 + (s.loadBytes s.base (blockCount x)).length := by
    rw [State.length_loadBytes, blockCount]
    omega
  rw [State.loadedBlock, State.v_setI, State.v_setBlock, dif_pos hblock]
  exact s.getElem_loadBytes _ _ _ _

theorem State.loadedBlock_frame :
    Frame { index := true, regs := (List.finRange 16).filter (fun k => k ≤ x) } s (s.loadedBlock x) := by
  refine ((Frame.refl _ s).advance.setBlock 0 _ fun r hr => ?_).setI rfl _
  rw [State.length_loadBytes, blockCount] at hr
  have hrx : r ≤ x := Fin.le_def.2 (by omega)
  exact List.mem_filter.2 ⟨List.mem_finRange r, decide_eq_true hrx⟩

end

end Sys2Proof.Machine

open Sys2Proof Sys2Proof.Machine

/-- Settles O30: each writes I alone (`exists_next_of_setI`), and only the sum of ADD I can wrap. -/
theorem indexWrites : Obligations.IndexWrites := fun x nnn s =>
  ⟨formNnn_toNat 0xA nnn, formXNn_F_toNat x 0x1E, formXNn_F_toNat x 0x29,
    exists_next_of_setI rfl (toNat_addrWord nnn), exists_next_of_setI rfl (s.toNat_indexPlus _),
    exists_next_of_setI rfl (toNat_glyphAddress _)⟩

/-- Settles O31: the range check passes and the digits are stored (`State.storedDigits`), or it fails before
any byte is written. -/
theorem bcdStoresDigits : Obligations.BcdStoresDigits := by
  intro x s
  refine ⟨formXNn_F_toNat x 0x33, fun hwf hrange => ?_, fun hout => exists_withRange_takesFault hout s _ _⟩
  have hdigit := s.memRead_storedDigits x hwf hrange
  refine ⟨s.storedDigits x, withRange_of_inRange (.inr hrange) s _ _, ?_, ?_, ?_, s.advance.storeBytes_pc _ _,
    s.storedDigits_frame x⟩
  · exact (congrArg BitVec.toNat (hdigit 0)).trans BitVec.toNat_udiv
  · refine (congrArg BitVec.toNat (hdigit 1)).trans ?_
    exact BitVec.toNat_umod.trans (congrArg (· % 10) BitVec.toNat_udiv)
  · exact (congrArg BitVec.toNat (hdigit 2)).trans BitVec.toNat_umod

/-- Settles O32: the range check passes and the block is stored (`State.storedBlock`), or it fails before any
byte is written. -/
theorem registerBlockStores : Obligations.RegisterBlockStores := by
  intro x s
  refine ⟨formXNn_F_toNat x 0x55, fun hwf hrange => ?_, fun hout => exists_withRange_takesFault hout s _ _⟩
  have hexec : exec (.ldMemVx x) s = .next (s.storedBlock x) := exec_ldMemVx_of_inRange hrange
  exact ⟨_, hexec, fun k hk => memRead_of_exec_ldMemVx hwf hrange hk hexec, s.toNat_indexPlus _,
    s.advance.storeBytes_pc _ _, s.storedBlock_frame x⟩

/-- Settles O33: the range check passes and the block is loaded (`State.loadedBlock`), or it fails before any
register is written. -/
theorem registerBlockLoads : Obligations.RegisterBlockLoads := by
  intro x s
  refine ⟨formXNn_F_toNat x 0x65, fun hrange => ?_, fun hout => exists_withRange_takesFault hout s _ _⟩
  exact ⟨s.loadedBlock x, withRange_of_inRange (.inr hrange) s _ _, fun _ => s.loadedBlock_v x,
    s.toNat_indexPlus _, s.advance.setBlock_pc _ _, s.loadedBlock_frame x⟩

/-- Settles O34: the load (`registerBlockLoads`) reads the bytes that the store (`registerBlockStores`) wrote,
and a block within the space leaves I below its wrap. -/
theorem storeLoadRoundTrip : Obligations.StoreLoadRoundTrip := by
  intro x s t u hwf hrange hexec hI hmem
  obtain ⟨-, hstore, -⟩ := registerBlockStores x s
  obtain ⟨t', hexec', hstored, htI, -⟩ := hstore hwf hrange
  obtain rfl : t = t' := Host.Outcome.next.inj (hexec.symm.trans hexec')
  obtain ⟨-, hload, -⟩ := registerBlockLoads x u
  obtain ⟨w, hw, hloaded, hwI, -⟩ := hload (by rw [hI]; exact hrange)
  refine ⟨w, hw, fun k hk => ?_, by omega, by rw [hwI, hI]; omega⟩
  rw [hloaded k hk, hI, hmem, hstored k hk]

end

section
/-! The display (44_display.md R190–R194): the rasterizer hits the cells under a set sprite bit, and the state DRW
leaves is its blit with the collision flag in VF. -/

namespace Sys2Proof.Machine

/-! ### The blit of a state -/

section
variable (s : State) (x y : Reg) (n : Nibble)

/-- The rows given to the rasterizer hit exactly the set S of R194. -/
theorem State.rowsHit_spriteRows_iff (c : Fin 64) (r : Fin 32) :
    rowsHit (s.v x) (s.v y) 0 (s.spriteRows n) c r ↔ inSprite s x y n c r := by
  have hlen : (s.spriteRows n).length = n.toNat := s.length_loadBytes _ _
  have hrow (k : Nat) (hk : k < (s.spriteRows n).length) :
      (s.spriteRows n)[k] = s.memRead (s.I.toNat + k) := s.getElem_loadBytes _ _ _ hk
  constructor
  · rintro ⟨k, hk, b, hb, hbit, hcol, hlin⟩
    rw [hrow] at hbit
    rw [Nat.zero_add] at hlin
    exact ⟨k, b, hlen ▸ hk, hb, hbit, congrArg Fin.val hcol, congrArg Fin.val hlin⟩
  · rintro ⟨k, b, hk, hb, hbit, hcol, hlin⟩
    rw [← hlen] at hk
    rw [← hrow k hk] at hbit
    refine ⟨k, hk, b, hb, hbit, Fin.ext hcol, ?_⟩
    rw [Nat.zero_add]
    exact Fin.ext hlin

/-- The blit of DRW on this state: the new framebuffer, and whether there was a collision (R191). -/
def State.blit : FrameBuffer × Bool := drawSprite (s.v x) (s.v y) (s.spriteRows n) s.FB

/-- Exactly the cells of S are inverted, and a collision is a cell of S that was on (R192, R194). -/
theorem State.blit_spec :
    (∀ c r, (s.blit x y n).1.get c r ≠ s.FB.get c r ↔ inSprite s x y n c r) ∧
    ((s.blit x y n).2 = true ↔ ∃ c r, inSprite s x y n c r ∧ s.FB.get c r = true) := by
  have hlen : (s.spriteRows n).length = n.toNat := s.length_loadBytes _ _
  have hrows := drawRows_spec (s.v x) (s.v y) (s.spriteRows n) 0 (s.FB, false)
    (by have := n.isLt; omega)
  simp only [s.rowsHit_spriteRows_iff, Bool.false_eq_true, false_or] at hrows
  exact hrows

/-! ### The state DRW leaves -/

/-- The state DRW leaves when its rows lie in the space: VF is written after the blit (R191). -/
def State.blitted : State :=
  { s.advance with FB := (s.blit x y n).1 }.setV vf (flagByte (s.blit x y n).2)

theorem State.blitted_v_vf : (s.blitted x y n).v vf = flagByte (s.blit x y n).2 :=
  State.v_setV_same _ _ _

theorem State.blitted_frame : Frame { regs := [vf], display := true } s (s.blitted x y n) :=
  ((Frame.refl _ s).advance.setFB rfl _).setV (.head _) _

end

section
variable {s : State} {x y : Reg} {n : Nibble}

theorem exec_drw_of_inRange (h : n.toNat = 0 ∨ s.I.toNat + n.toNat - 1 ≤ 4095) :
    exec (.drw x y n) s = .next (s.blitted x y n) :=
  withRange_of_inRange (by rw [State.base]; omega) s _ _

theorem exists_exec_drw_takesFault (hn : 0 < n.toNat) (h : 4095 < s.I.toNat + n.toNat - 1) :
    ∃ t, exec (.drw x y n) s = .next t ∧ TakesFault s t .dataOutOfRange (encode (.drw x y n))
      (if 4095 < s.I.toNat then s.I.toNat else 4096) := by
  obtain ⟨k, hk⟩ : ∃ k, n.toNat = k + 1 := Nat.exists_eq_add_one.2 hn
  rw [exec, execDrw, hk]
  exact exists_withRange_takesFault (by rw [State.base]; omega) s _ _

/-! ### Two draws -/

/-- What DRW may change, VF and the display, moves no sprite whose origin is in other registers. -/
theorem Frame.inSprite_iff {t : State} (h : Frame { regs := [vf], display := true } s t) (hx : x ≠ vf)
    (hy : y ≠ vf) (c : Fin 64) (r : Fin 32) : inSprite t x y n c r ↔ inSprite s x y n c r := by
  have hvx : t.v x = s.v x := h.regs x (List.mem_singleton.not.2 hx)
  have hvy : t.v y = s.v y := h.regs y (List.mem_singleton.not.2 hy)
  have hmem (a : Nat) : t.memRead a = s.memRead a := h.memory a fun ha => Nat.not_lt_zero a ha.2
  simp only [inSprite, hvx, hvy, h.index rfl, hmem]

end

end Sys2Proof.Machine

open Sys2Proof Sys2Proof.Machine

/-- Settles O37: the range check passes and the blit has its cells and its collision (`State.blit_spec`), or it
fails before anything is drawn. -/
theorem drwDrawsAndDetects : Obligations.DrwDrawsAndDetects := by
  refine fun x y n s => ⟨formXYN_toNat 0xD x y n, fun hrange => ?_, exists_exec_drw_takesFault⟩
  obtain ⟨hcells, hcollides⟩ := s.blit_spec x y n
  refine ⟨s.blitted x y n, exec_drw_of_inRange hrange, hcells, fun hon => ?_, fun hoff => ?_, rfl,
    s.blitted_frame x y n⟩
  · rw [State.blitted_v_vf, hcollides.2 hon, flagByte_true]
  · rw [State.blitted_v_vf, Bool.eq_false_iff.2 (mt hcollides.1 hoff), flagByte_false]

/-- Settles O38: both draws invert the same cells (`drwDrawsAndDetects`, `Frame.inSprite_iff`), so each cell
returns to its value, and a cell of the sprite is on for the second draw exactly when it was off for the first. -/
theorem drwTwiceRestores : Obligations.DrwTwiceRestores := by
  intro x y n s hx hy hrange
  obtain ⟨-, hfirst, -⟩ := drwDrawsAndDetects x y n s
  obtain ⟨t, ht, hcells, -, -, -, hframe⟩ := hfirst hrange
  obtain ⟨-, hsecond, -⟩ := drwDrawsAndDetects x y n t
  obtain ⟨u, hu, hcells', hon, hoff, -⟩ := hsecond (by rw [hframe.index rfl]; exact hrange)
  simp only [hframe.inSprite_iff hx hy] at hcells' hon hoff
  refine ⟨t, u, ht, hu, FrameBuffer.ext_get fun c r => ?_, ?_⟩
  · by_cases hin : inSprite s x y n c r
    · rw [Bool.eq_not_of_ne ((hcells' c r).2 hin), Bool.eq_not_of_ne ((hcells c r).2 hin), Bool.not_not]
    · exact (of_not_not (mt (hcells' c r).1 hin)).trans (of_not_not (mt (hcells c r).1 hin))
  · have hturned (c : Fin 64) (r : Fin 32) :
        inSprite s x y n c r ∧ t.FB.get c r = true ↔ inSprite s x y n c r ∧ s.FB.get c r = false :=
      and_congr_right fun hin => by
        rw [Bool.eq_not_of_ne ((hcells c r).2 hin), Bool.not_eq_true']
    simp only [hturned] at hon hoff
    refine ⟨fun hvf => ?_, hon⟩
    by_contra hnone
    exact absurd (hvf.symm.trans (hoff hnone)) (by decide)

/-- Settles O36: the framebuffer becomes the blank one. -/
theorem clsClearsEveryCell : Obligations.ClsClearsEveryCell :=
  ⟨rfl, fun s => ⟨_, rfl, FrameBuffer.get_blank, rfl, (Frame.refl _ s).advance.setFB rfl _⟩⟩

end

section
/-! Key input and timer access (45_timers_input.md): the key comparison of SKP and SKNP (R211, R212), the two
outcomes of LD Vx, K (R216), and the timer reads and writes (R213–R215). -/

namespace Sys2Proof.Machine

/-! ### The words Exnn -/

theorem formXNn_E_toNat (x : Reg) (nn : Byte) :
    (formXNn 0xE x nn).toNat = 0xE000 + nn.toNat + 0x100 * x.val :=
  (formXNn_toNat 0xE x nn).trans (Nat.add_right_comm _ _ _)

/-! ### The key comparison -/

/-- NONE equals no register value (R210). -/
theorem keyIs_iff (key : Option Key) (v : Byte) :
    keyIs key v = true ↔ ∃ k, key = some k ∧ k.val = v.toNat := by
  cases key with
  | none => simp [keyIs]
  | some k => simp [keyIs]

theorem not_keyIs_iff (key : Option Key) (v : Byte) :
    (!keyIs key v) = true ↔ ¬ ∃ k, key = some k ∧ k.val = v.toNat := by
  rw [← keyIs_iff, Bool.not_eq_true', Bool.not_eq_true]

/-! ### LD Vx, K -/

/-- A key code fits in a byte, so it is not reduced. -/
theorem toNat_keyByte (k : Key) : (keyByte k).toNat = k.val := by
  rw [keyByte, BitVec.toNat_ofNat]
  omega

theorem exec_ldVxK_of_key {s : State} {k : Key} (h : s.key = some k) (x : Reg) :
    exec (.ldVxK x) s = .next (s.writeDest x (keyByte k)) := by
  rw [exec, execLdVxK, h]
  rfl

/-- The rewind undoes the advance of pc. -/
theorem exec_ldVxK_of_noKey {s : State} (h : s.key = none) (x : Reg) :
    exec (.ldVxK x) s = .next (s.advance.jump s.pc) := by
  rw [exec, execLdVxK, h, State.takeKey, State.advance_pc, BitVec.add_sub_cancel]

end Sys2Proof.Machine

open Sys2Proof Sys2Proof.Machine

/-- Settles O39: SKP is one skip on the key being Vx, SKNP one on its negation (`exists_next_of_skip`). -/
theorem keySkips : Obligations.KeySkips := by
  intro x s
  obtain ⟨t, ht, htpc, htframe⟩ := exists_next_of_skip (i := .skp x) rfl (keyIs_iff s.input.key (s.v x))
  obtain ⟨u, hu, hupc, huframe⟩ := exists_next_of_skip (i := .sknp x) rfl (not_keyIs_iff s.input.key (s.v x))
  refine ⟨formXNn_E_toNat x 0x9E, formXNn_E_toNat x 0xA1, t, u, ht, hu, htframe, huframe,
    fun hkey => ?_, fun hother => ?_⟩
  · rw [if_pos hkey] at htpc
    rw [if_neg (not_not_intro hkey)] at hupc
    exact ⟨htpc, hupc⟩
  · have hnot : ¬ ∃ k, s.input.key = some k ∧ k.val = (s.v x).toNat := fun ⟨k, hk, hv⟩ => hother k hk hv
    rw [if_neg hnot] at htpc
    rw [if_pos hnot] at hupc
    exact ⟨htpc, hupc⟩

/-- Settles O40: with a key Vx alone is written, and with none pc is rewound to the instruction itself. -/
theorem keyWaitRetries : Obligations.KeyWaitRetries := by
  refine fun x s => ⟨formXNn_F_toNat x 0x0A, fun k hk => ?_, fun hnone => ?_⟩
  · refine ⟨_, exec_ldVxK_of_key hk x, ?_, s.writeDest_pc x _, s.writeDest_frame x _⟩
    rw [State.writeDest_v_dest, toNat_keyByte]
  · exact ⟨_, exec_ldVxK_of_noKey hnone x, rfl, (Frame.refl _ s).advance.jump _⟩

/-- Settles O41: each is one write after the advance, of Vx, of DT or of ST. -/
theorem timerAccess : Obligations.TimerAccess := fun x s =>
  ⟨formXNn_F_toNat x 0x07, formXNn_F_toNat x 0x15, formXNn_F_toNat x 0x18,
    ⟨_, rfl, s.writeDest_v_dest x _, s.writeDest_pc x _, s.writeDest_frame x _⟩,
    ⟨_, rfl, rfl, rfl, (Frame.refl _ s).advance.setDT rfl _⟩,
    ⟨_, rfl, rfl, rfl, (Frame.refl _ s).advance.setST rfl _⟩⟩

end

section
/-! Taking a fault (60_exceptions.md R230–R237): an instruction raises one exactly when it meets its trap
condition, and then only the record and `halted` are written; so a step ends in one of four ways. -/

namespace Sys2Proof.Machine

/-! ### The faults an instruction raises itself -/

/-- The cause and the address that an instruction may record in `s`: one of the two stack faults with address 0,
or the range fault with the first address beyond 4095 from I upward (R232, R233, R235). -/
def IsTrapRecord (s : State) (c : FaultCause) (a : Nat) : Prop :=
  (c = .stackOverflow ∨ c = .stackUnderflow) ∧ a = 0 ∨
    c = .dataOutOfRange ∧ a = if 4095 < s.I.toNat then s.I.toNat else 4096

/-- The answer of an instruction that traps is the fault entry; that of one that does not trap leaves `halted` as
it was. -/
def TrapsOr (s : State) (i : Instr) (r : Result) : Prop :=
  (trapsIn i s ∧ ∃ c a, IsTrapRecord s c a ∧ r = raiseIn s c i a) ∨
    ¬ trapsIn i s ∧ ∃ u, r = .next u ∧ u.halted = s.halted

section
variable {s t : State} {i : Instr}

theorem TrapsOr.completes (hi : ¬ trapsIn i s) (ht : t.halted = s.halted) : TrapsOr s i (.next t) :=
  .inr ⟨hi, t, rfl, ht⟩

/-- A transfer from I whose trap condition is the range check of R170. -/
theorem TrapsOr.withRange {count : Nat} (hi : trapsIn i s ↔ count ≠ 0 ∧ 4095 < s.base + (count - 1))
    (ht : t.halted = s.halted) : TrapsOr s i (withRange s i s.base count t) := by
  obtain ⟨hin, heq⟩ | ⟨hout, heq⟩ := withRange_cases s i s.base count t
  · rw [heq]
    have hfits : ¬ (count ≠ 0 ∧ 4095 < s.base + (count - 1)) := by omega
    exact .completes (mt hi.1 hfits) ht
  · exact .inl ⟨hi.2 hout, _, _, .inr ⟨rfl, rfl⟩, heq⟩

theorem exec_ret_trapsOr (s : State) : TrapsOr s .ret (exec .ret s) := by
  by_cases h : s.sp.val = 0
  · exact .inl ⟨h, _, 0, .inl ⟨.inr rfl, rfl⟩, exec_ret_of_empty h⟩
  · obtain ⟨k, hk⟩ : ∃ k : Fin 16, s.sp.val = k.val + 1 :=
      ⟨⟨s.sp.val - 1, by omega⟩, by simp only; omega⟩
    rw [exec_ret_of_sp hk]
    exact .completes h rfl

theorem exec_call_trapsOr (nnn : Addr) (s : State) : TrapsOr s (.call nnn) (exec (.call nnn) s) := by
  by_cases h : s.sp.val = 16
  · exact .inl ⟨h, _, 0, .inl ⟨.inl rfl, rfl⟩, exec_call_of_full h⟩
  · obtain ⟨k, hk⟩ : ∃ k : Fin 16, s.sp.val = k.val := ⟨⟨s.sp.val, by omega⟩, rfl⟩
    rw [exec_call_of_sp hk]
    exact .completes h (s.called_frame k nnn).halted

/-- Every instruction traps exactly on its own condition of R237. -/
theorem exec_trapsOr (i : Instr) (s : State) : TrapsOr s i (exec i s) := by
  cases i with
  | ret => exact exec_ret_trapsOr s
  | call nnn => exact exec_call_trapsOr nnn s
  | drw _ _ _ => exact .withRange (by rw [trapsIn, State.base]; omega) rfl
  | ldB _ => exact .withRange (by rw [trapsIn, State.base]; omega) (by simp)
  | ldMemVx _ | ldVxMem _ => exact .withRange (by rw [trapsIn, State.base, blockCount]; omega) (by simp)
  | seImm _ _ | sneImm _ _ | seReg _ _ | sneReg _ _ | skp _ | sknp _ =>
    exact .completes id (s.advance.skipIf_halted _)
  | ldVxK x => exact .completes id (s.advance.takeKey_halted x _)
  | _ => exact .completes id rfl

end

/-! ### The ways a step ends -/

section
variable {s t : State} {i j : Instr}

theorem Runs.encode_eq (h : Runs s i) : encode i = s.wordAtPc := encode_of_decode h.decoded

/-- The word at pc decodes to one instruction only. -/
theorem Runs.unique (hi : Runs s i) (hj : Runs s j) : i = j :=
  Except.ok.inj (hi.decoded.symm.trans hj.decoded)

theorem Runs.supported (h : Runs s i) : supportedWord s.wordAtPc = true :=
  h.encode_eq ▸ supportedWord_encode i

theorem State.endStep_halted (s : State) : s.endStep.halted = s.halted := by
  cases h : s.halted with
  | true => rw [State.endStep_of_halted h, h]
  | false => rw [State.endStep_of_running h, State.nextInput_halted, State.tickTimers_halted, h]

/-- A step that answers a next state took the fault of the fetch, of the decoder or of its instruction, in this
order of priority (R237), or completed with the machine running. -/
theorem step_ends (h : step s = .next t) :
    (4094 < s.pc.toNat ∧
      t = s.raise .fetchOutOfRange 0 (if 4095 < s.pc.toNat then s.pc.toNat else 4096)) ∨
    (s.pc.toNat ≤ 4094 ∧ supportedWord s.wordAtPc = false ∧ t = s.raise .unsupportedOpcode s.wordAtPc 0) ∨
    ∃ i, Runs s i ∧
      ((trapsIn i s ∧ ∃ c a, IsTrapRecord s c a ∧ t = s.raise c s.wordAtPc a) ∨
        ¬ trapsIn i s ∧ t.halted = false) := by
  obtain ⟨hrun, ⟨a, hfetch, rfl⟩ | ⟨w, e, hfetch, hdec, rfl⟩ | ⟨w, i, u, hfetch, hdec, hexec, rfl⟩⟩ :=
    step_cases h
  · obtain ⟨hpc, rfl⟩ := State.fetch_eq_error.1 hfetch
    exact .inl ⟨hpc, rfl⟩
  · obtain ⟨hpc, rfl⟩ := State.fetch_eq_ok.1 hfetch
    obtain ⟨-, i, hdec'⟩ | ⟨hsup, -⟩ := decoderIsTotal s.wordAtPc
    · exact nomatch hdec.symm.trans hdec'
    · exact .inr (.inl ⟨hpc, hsup, rfl⟩)
  · obtain ⟨hpc, rfl⟩ := State.fetch_eq_ok.1 hfetch
    have hruns : Runs s i := ⟨hrun, hpc, hdec⟩
    refine .inr (.inr ⟨i, hruns, ?_⟩)
    obtain ⟨htrap, c, a, hrec, hraise⟩ | ⟨htrap, v, hv, hhalted⟩ := exec_trapsOr i s
    · obtain rfl := Host.Outcome.next.inj (hexec.symm.trans hraise)
      refine .inl ⟨htrap, c, a, hrec, ?_⟩
      rw [State.endStep_of_halted rfl, hruns.encode_eq]
    · obtain rfl := Host.Outcome.next.inj (hexec.symm.trans hv)
      exact .inr ⟨htrap, by rw [State.endStep_halted, hhalted, hrun]⟩

end

end Sys2Proof.Machine

open Sys2Proof Sys2Proof.Machine

/-- Settles O13: each way of faulting is the fault entry on the state before the step (`step_ends`), with the
address that its cause has. -/
theorem faultsArePrecise : Obligations.FaultsArePrecise := by
  intro s t h ht
  refine ⟨?_, step_of_halted ht⟩
  obtain ⟨-, rfl⟩ | ⟨-, -, rfl⟩ | ⟨i, -, ⟨-, c, a, hrec, rfl⟩ | ⟨-, hrun⟩⟩ := step_ends h
  · exact ⟨.fetchOutOfRange, _, nofun, s.raise_takesFault _ _ _, fun _ => rfl, nofun, fun hf => absurd rfl hf⟩
  · exact ⟨.unsupportedOpcode, _, nofun, s.raise_takesFault _ _ _, nofun, nofun, fun _ _ => rfl⟩
  · obtain ⟨rfl | rfl, rfl⟩ | ⟨rfl, rfl⟩ := hrec
    · exact ⟨.stackOverflow, _, nofun, s.raise_takesFault _ _ _, nofun, nofun, fun _ _ => rfl⟩
    · exact ⟨.stackUnderflow, _, nofun, s.raise_takesFault _ _ _, nofun, nofun, fun _ _ => rfl⟩
    · exact ⟨.dataOutOfRange, _, nofun, s.raise_takesFault _ _ _, nofun, fun _ => rfl, fun _ hd => absurd rfl hd⟩
  · exact nomatch ht.symm.trans hrun

/-- Settles O14: the three faulting ways of a step are the three conditions; a step that completed had a
fetchable pc, a supported word and no trap in its one instruction (`step_ends`). -/
theorem haltsExactlyOnFaults : Obligations.HaltsExactlyOnFaults := by
  intro s t h
  obtain ⟨hpc, rfl⟩ | ⟨hpc, hsup, rfl⟩ | ⟨i, hruns, ⟨htrap, c, a, -, rfl⟩ | ⟨htrap, hrun⟩⟩ := step_ends h
  · exact iff_of_true rfl (.inl hpc)
  · exact iff_of_true rfl (.inr (.inl ⟨hpc, hsup⟩))
  · exact iff_of_true rfl (.inr (.inr ⟨i, hruns, htrap⟩))
  · refine iff_of_false (by rw [hrun]; decide) ?_
    rintro (hpc | ⟨-, hsup⟩ | ⟨j, hj, htrapj⟩)
    · exact absurd hruns.fetchable (Nat.not_le_of_lt hpc)
    · exact nomatch hsup.symm.trans hruns.supported
    · exact htrap (hruns.unique hj ▸ htrapj)

end

section
/-! A parked machine (70_reset_and_hazards.md R277): its step is a jump to itself, so only the end of the step
shows, and the timers run down with the ticking inputs (R241, R282). -/

namespace Sys2Proof.Machine

theorem decode_of_opField_one {w : Word} (h : opField w = 1) : decode w = .ok (.jp (nnnField w)) :=
  have hw : encode (.jp (nnnField w)) = w := formNnn_fields h
  (congrArg decode hw.symm).trans (decode_encode _)

section
variable {s t : State}

/-- A parked machine's next step runs a jump to its own address. -/
theorem State.runs_of_parked (h : s.parked = true) : ∃ nnn, Runs s (.jp nnn) ∧ addrWord nnn = s.pc := by
  unfold State.parked at h
  split at h
  next w hrun hfetch =>
    obtain ⟨hpc, rfl⟩ := State.fetch_eq_ok.1 hfetch
    rw [Bool.and_eq_true, beq_iff_eq, beq_iff_eq] at h
    obtain ⟨hop, htarget⟩ := h
    exact ⟨_, ⟨hrun, hpc, decode_of_opField_one hop⟩, htarget⟩
  next => exact nomatch h

/-- Being parked is read from `halted`, pc and memory alone. -/
theorem State.parked_congr (hhalted : t.halted = s.halted) (hpc : t.pc = s.pc) (hmem : t.mem = s.mem) :
    t.parked = s.parked := by
  simp only [State.parked, State.fetch, State.memRead, hhalted, hpc, hmem]

theorem State.parked_tickTimers_nextInput (s : State) : s.tickTimers.nextInput.parked = s.parked :=
  State.parked_congr (by simp) (by simp) (by simp)

/-- The jump of a parked machine leaves the state as it was, and the step ends as every other does. -/
theorem step_of_parked (h : s.parked = true) : step s = .next s.tickTimers.nextInput := by
  obtain ⟨nnn, hruns, htarget⟩ := State.runs_of_parked h
  have hexec : exec (.jp nnn) s = .next s := by
    rw [exec, execJp, htarget]
    rfl
  rw [hruns.step_eq, hexec, finish, State.endStep_of_running hruns.running]

theorem State.tick_cons {q : StepInput} {rest : List StepInput} (h : s.inputs = q :: rest) :
    s.tick = q.tick := by
  rw [State.tick, State.input_cons h]

theorem run_succ_of_step {k : Nat} (h : step s = .next t) : core.run (k + 1) s = core.run k t := by
  have hstep : core.step s = .next t := h
  simp only [Host.Core.run, hstep]

/-- A timer that counts down with one input and then with the rest of a list falls by the ticking inputs of
both. -/
theorem countdown_toNat_sub_ticks (q : StepInput) (rest : List StepInput) (b : Byte) :
    (countdown q.tick b).toNat - (rest.filter (fun i => i.tick)).length =
      b.toNat - ((q :: rest).filter (fun i => i.tick)).length := by
  rw [countdown_toNat, List.filter_cons]
  cases q.tick with
  | false => rfl
  | true => rw [if_pos rfl, if_pos rfl, List.length_cons]; omega

end

end Sys2Proof.Machine

open Sys2Proof Sys2Proof.Machine

/-- Settles O57, by induction on the given inputs: a parked machine's step uses up one, counts both timers down
by its tick, and leaves the machine parked. -/
theorem parkedTimersRunDown : Obligations.ParkedTimersRunDown := by
  intro script
  induction script with
  | nil => exact fun s hparked _ => ⟨s, rfl, hparked, rfl, rfl⟩
  | cons q rest ih =>
    intro s hparked hinputs
    have hrest : s.tickTimers.nextInput.inputs = rest := by
      rw [State.nextInput_inputs, State.tickTimers_inputs, hinputs, List.tail_cons]
    obtain ⟨t, hrun, ht, hDT, hST⟩ :=
      ih s.tickTimers.nextInput (s.parked_tickTimers_nextInput.trans hparked) hrest
    rw [State.nextInput_DT, State.tickTimers_DT, State.tick_cons hinputs, countdown_toNat_sub_ticks] at hDT
    rw [State.nextInput_ST, State.tickTimers_ST, State.tick_cons hinputs, countdown_toNat_sub_ticks] at hST
    exact ⟨t, (run_succ_of_step (step_of_parked hparked)).trans hrun, ht, hDT, hST⟩

end

section
/-! The output ports (60_exceptions.md R252–R256): the audio output with its two commands, the framebuffer
snapshot and the inspection copy. -/

namespace Sys2Proof.Machine

theorem State.audioOn_iff (s : State) : s.audioOn = true ↔ s.ST.toNat ≠ 0 := byte_bne_iff s.ST 0

/-- Cell `k` of the snapshot is column `k mod 64` of row `k / 64` (R30, R254). -/
theorem State.getElem?_fbRead (s : State) (c : Fin 64) (r : Fin 32) :
    s.fbRead[c.val + r.val * 64]? = some (s.FB.get c r) := by
  have hlt : c.val + r.val * 64 < 2048 := by omega
  have hcol : Fin.ofNat 64 (c.val + r.val * 64) = c := Fin.ext (by simp only [Fin.val_ofNat]; omega)
  have hrow : Fin.ofNat 32 ((c.val + r.val * 64) / 64) = r := Fin.ext (by simp only [Fin.val_ofNat]; omega)
  rw [State.fbRead, List.getElem?_map, List.getElem?_range hlt, Option.map_some, hcol, hrow]

theorem State.getElem?_inspect_V (s : State) (r : Reg) : s.inspect.V[r.val]? = some (s.v r) := by
  rw [State.inspect, Vector.getElem?_toList, Vector.getElem?_eq_getElem r.isLt, State.v]

theorem State.getElem?_inspect_memory (s : State) {a : Nat} (h : a < 4096) :
    s.inspect.memory[a]? = some (s.memRead a) := by
  rw [State.inspect, List.getElem?_map, Config.memSize, List.getElem?_range h, Option.map_some]

end Sys2Proof.Machine

open Sys2Proof Sys2Proof.Machine

/-- Settles O58: the command is read from the output before and the output after, which are four pairs. -/
theorem audioFollowsSoundTimer : Obligations.AudioFollowsSoundTimer := by
  refine ⟨rfl, fun s t => ⟨s.audioOn_iff, ?_⟩⟩
  unfold toneEvent
  cases s.audioOn <;> cases t.audioOn <;> decide

/-- Settles O59: both lists are maps over a range, read at one index. -/
theorem portsShowTheState : Obligations.PortsShowTheState := fun s =>
  ⟨by rw [State.fbRead, List.length_map, List.length_range], s.getElem?_fbRead, rfl, rfl, rfl,
    s.getElem?_inspect_V, by rw [State.inspect, List.length_map, List.length_range, Config.memSize],
    fun _ => s.getElem?_inspect_memory⟩

end

section
/-! Reset and construction (70_reset_and_hazards.md R271–R274): what each part of a fresh machine reads as. -/

namespace Sys2Proof.Machine

theorem construct_of_oversized (font : Font) (mode : SubnFlag) {img : List Byte} (h : 4096 < img.length) :
    construct font mode img = .error .invalidMemorySize :=
  if_neg fun hfits => Nat.not_le_of_lt h ((imageFits_iff img).1 hfits)

/-- The constructed contents with every index inside its bounds: the font, then the image, then zero (R272). -/
theorem constructedByte_eq (font : Font) (img : List Byte) (a : Nat) :
    constructedByte font img a =
      if h : a < 80 then font[a] else if h : a < img.length then img[a] else 0 := by
  unfold constructedByte fontByte
  split
  · rfl
  · split
    next hlt => exact List.getD_eq_getElem img 0 hlt
    next hge => exact List.getD_eq_default img 0 (Nat.le_of_not_lt hge)

@[simp] theorem State.reset_v (r : Reg) : State.reset.v r = 0 := Vector.getElem_replicate r.isLt

theorem State.reset_stack (k : Fin 16) : State.reset.stack[k] = 0 := Vector.getElem_replicate k.isLt

@[simp] theorem State.reset_FB_get (c : Fin 64) (r : Fin 32) : State.reset.FB.get c r = false :=
  FrameBuffer.get_blank c r

/-- Memory right after reset lists no cell, so that every address reads as its construction contents. -/
theorem State.reset_memRead (a : Nat) :
    State.reset.memRead a = if h : a < 80 then defaultFont[a] else 0 := rfl

end Sys2Proof.Machine

open Sys2Proof Sys2Proof.Machine

/-- Settles O56: the step is the end of a step alone, which writes the timers and the input fields. -/
theorem parkedStaysParked : Obligations.ParkedStaysParked := fun s hparked =>
  ⟨s.tickTimers.nextInput, step_of_parked hparked, s.parked_tickTimers_nextInput.trans hparked,
    s.tickTimers_nextInput_eq⟩

/-- Settles O55: an image within the capacity gives a machine, and a longer one the error. -/
theorem oversizedImageRejected : Obligations.OversizedImageRejected := by
  refine fun font mode img => ⟨fun herror => ?_, construct_of_oversized font mode⟩
  by_contra hle
  have hok := construct_of_fits font mode (Nat.le_of_not_lt hle)
  exact nomatch hok.symm.trans herror

/-- Settles O54: the constructed memory is built from its bytes, which makes it canonical. -/
theorem imageConstructorLoads : Obligations.ImageConstructorLoads := by
  intro font mode img hfits
  refine ⟨constructed font mode img, construct_of_fits font mode hfits, ?_, constructed_subnFlag font mode img,
    fun a ha => ?_, constructed_eq font mode img⟩
  · rw [constructed_mem]
    exact Memory.wf_ofBytes _
  · rw [memRead_constructed font mode img ha, constructedByte_eq]

/-- Settles O53: the scalar fields are literals of the reset state; registers, stack, framebuffer and memory are
read element by element. -/
theorem resetState : Obligations.ResetState :=
  ⟨rfl, rfl, rfl, rfl, rfl, State.reset_FB_get, State.reset_memRead, State.reset_v, rfl, rfl, rfl,
    State.reset_stack⟩

end
